-- ==== Sys2Proof/Word.lean ====
section
/-! DEFINITION. The two word types of the machine and the names of its eight general registers. -/

namespace Sys2Proof

/-- One byte: a memory cell, an opcode byte, a ModRM byte (spec R10, R20). -/
abbrev Byte := BitVec 8

/-- A `u16`: a register value, a memory word, an immediate or an address (spec R13, R21). -/
abbrev Word := BitVec 16

/-- The eight general registers, in the order of the RegisterId table (spec R30), which is not the
order in which the source lists their names (spec R31). Their numbers are `Reg.number`. -/
inductive Reg where
  | ax | cx | dx | bx | sp | bp | si | di
deriving DecidableEq, Repr

end Sys2Proof
end

