-- ==== Sys2Proof/Machine/Flags.lean ====
section
/-! DEFINITION. The machine has no flags and no instruction writes any (spec R41, R226), so the one
arithmetic operation of the instruction set stands here with the carry it discards. -/

namespace Sys2Proof.Machine

/-- `add16(p, q) = (p + q) mod 65536`: the carry out of bit 15 is discarded, not recorded, and raises
nothing (spec R225). The sum is exact, then narrowed. -/
def add16 (p q : Word) : Word := BitVec.ofNat 16 (p.toNat + q.toNat)

end Sys2Proof.Machine
end

