-- ==== Sys2Proof/Config.lean ====
section
/-! DEFINITION. The parameters the spec fixes (`00_scope.md` section 3). The spec decides every open
point itself (`92_eei_decisions.md`, D1 to D21, "No behaviour is modelled as `stuck` or `any value`"),
so no free value stands here. -/

namespace Sys2Proof.Config

/-- Bytes in the one flat address space (spec R10, R43, R60). -/
abbrev memorySize : Nat := 65536

/-- The length in bytes of the longest instruction (spec R14). -/
abbrev longestInstruction : Nat := 4

/-- The largest value of an i32 immediate literal (spec R162). -/
abbrev largestImmediate : Nat := 2147483647

end Sys2Proof.Config
end

