-- ==== Sys2Proof/Errors.lean ====
section
/-! DEFINITION. The eight error kinds of spec R300 and, for each stage that raises one, the error
with the information R300 says is recorded. -/

namespace Sys2Proof

/-- The error kinds of spec R300. Their numeric codes are `ErrorKind.code`. -/
inductive ErrorKind where
  | invalidOperand
  | illegalOperandCombination
  | unsupportedEncoding
  | unknownOpcode
  | invalidRegisterId
  | endOfStream
  | addressOutOfRange
  | programTooLarge
deriving DecidableEq, Repr

/-- An error the decoder or the execute unit raises while it runs (spec R300 codes 4 to 7). The
address of the instruction is recorded beside it, in `RunState.faulted`. -/
inductive RunError where
  /-- Raised by the decoder: the opcode byte, and the ModRM byte if one was fetched, match no decode
  rule (spec R301). -/
  | unknownOpcode (opcode : Byte) (modrm : Option Byte)
  /-- A register field outside 0 to 7: kept for completeness, no step raises it (spec R302). -/
  | invalidRegisterId
  /-- Raised by a fetch at or past the loaded length: the exact address of the byte not fetched,
  which may be 0x10000 or more (spec R303). -/
  | endOfStream (missing : Nat)
  /-- Raised by a 16-bit data access whose second byte would lie outside memory (spec R304). -/
  | addressOutOfRange (addr : Word)
deriving DecidableEq, Repr

/-- An error raised at load, before the first step (spec R305). -/
inductive LoadError where
  | programTooLarge (length : Nat)
deriving DecidableEq, Repr

/-- What the encoder says of one typed instruction it cannot encode (spec R153 to R155). -/
inductive EncodeError where
  | unknownOpcode (opcode : String)
  | unsupportedEncoding
deriving DecidableEq, Repr

/-- An error of the translation stages, with the index of the instruction (spec R300 codes 1 to 4). -/
inductive TranslateError where
  | invalidOperand (index : Nat) (operand : String)
  | illegalOperandCombination (index : Nat)
  | unsupportedEncoding (index : Nat)
  | unknownOpcode (index : Nat) (opcode : String)
deriving DecidableEq, Repr

end Sys2Proof
end

