-- ==== Sys2Proof/Syntax.lean ====
section
/-! DEFINITION. The instruction set: one constructor per row of spec/opcode_table.json. -/

namespace Sys2Proof

/-- The ten forms of spec R110, in the table's order. Operands stand in the order destination, source
(spec R25). -/
inductive Instr where
  /-- `MOV r16, imm16` (spec R200). -/
  | movRI (d : Reg) (n : Word)
  /-- `MOV r16, r16` (spec R202). -/
  | movRR (d s : Reg)
  /-- `MOV r16, [a]` (spec R204). -/
  | movRM (d : Reg) (a : Word)
  /-- `MOV [a], r16` (spec R206). -/
  | movMR (a : Word) (s : Reg)
  /-- `ADD r16, r16` (spec R220). -/
  | addRR (d s : Reg)
  /-- `ADD r16, [a]` (spec R222). -/
  | addRM (d : Reg) (a : Word)
  /-- `ADD [a], r16` (spec R224). -/
  | addMR (a : Word) (s : Reg)
  /-- `ADD AX, imm16`, the short form (spec R227). -/
  | addAI (n : Word)
  /-- `ADD r16, imm16` for a register other than AX (spec R229). -/
  | addRI (d : Reg) (n : Word)
  /-- `HLT` (spec R240). -/
  | hlt
deriving DecidableEq, Repr

end Sys2Proof
end

