-- ==== Sys2Proof/WellFormed.lean ====
section
/-! DEFINITION. Which instructions have an encoding. -/

namespace Sys2Proof

/-- The one restriction of the opcode table that the types do not carry: the long immediate form of
ADD does not name AX, whose only immediate form is the short one (spec R113, R121). -/
def Instr.wellFormed : Instr → Bool
  | .movRI _ _ => true
  | .movRR _ _ => true
  | .movRM _ _ => true
  | .movMR _ _ => true
  | .addRR _ _ => true
  | .addRM _ _ => true
  | .addMR _ _ => true
  | .addAI _ => true
  | .addRI d _ => d != .ax
  | .hlt => true

/-- `i` has an encoding. -/
abbrev Instr.WellFormed (i : Instr) : Prop := i.wellFormed = true

end Sys2Proof
end

