-- ==== Sys2Proof/Decode.lean ====
section
/-! DEFINITION. Register numbers, byte order, the decoder of spec R140 and the encoder of spec R152. -/

namespace Sys2Proof

/-! ## Bytes and words -/

/-- Bits 7 to 0 of a word (spec R22). -/
def lo8 (v : Word) : Byte := v.extractLsb' 0 8

/-- Bits 15 to 8 of a word (spec R22). -/
def hi8 (v : Word) : Byte := v.extractLsb' 8 8

/-- `hi : lo`, the word of two bytes (spec R22). -/
def joinBytes (hi lo : Byte) : Word := hi ++ lo

/-! ## Registers and the ModRM byte -/

/-- The RegisterId table: the value of every 3-bit register field (spec R30, R103). -/
def Reg.number : Reg → BitVec 3
  | .ax => 0b000#3
  | .cx => 0b001#3
  | .dx => 0b010#3
  | .bx => 0b011#3
  | .sp => 0b100#3
  | .bp => 0b101#3
  | .si => 0b110#3
  | .di => 0b111#3

/-- All registers, in the order of their numbers. -/
def Reg.all : List Reg := [.ax, .cx, .dx, .bx, .sp, .bp, .si, .di]

/-- The register of a 3-bit register field: the RegisterId table read the other way (spec R30). Every
value of the field names a register, so a decoded field is never out of range (spec R124). -/
def Reg.ofNumber (k : BitVec 3) : Reg := Reg.all.getD k.toNat .ax

/-- The mode field of a ModRM byte (spec R102). -/
def modrmMode (m : Byte) : BitVec 2 := m.extractLsb' 6 2

/-- The reg field of a ModRM byte (spec R102). -/
def modrmReg (m : Byte) : BitVec 3 := m.extractLsb' 3 3

/-- The rm field of a ModRM byte (spec R102). -/
def modrmRm (m : Byte) : BitVec 3 := m.extractLsb' 0 3

/-- The ModRM byte with the given fields (spec R102). -/
def modrm (mode : BitVec 2) (reg rm : BitVec 3) : Byte := mode ++ reg ++ rm

/-- The first byte of `MOV r16, imm16` for a register number: `10111rrr` (spec R101). -/
def movImmediateOpcode (r : BitVec 3) : Byte := 0b10111#5 ++ r

/-! ## The decoder -/

/-- The five opcodes that a ModRM byte follows (spec R107, R140). -/
def hasModRM (op : Byte) : Bool :=
  op == 0x8B#8 || op == 0x03#8 || op == 0x89#8 || op == 0x01#8 || op == 0x81#8

/-- The legal first bytes (spec R111). -/
def legalOpcode (op : Byte) : Bool :=
  op.extractLsb' 3 5 == 0b10111#5 || op == 0x05#8 || op == 0xF4#8 || hasModRM op

/-- The legal ModRM bytes of each ModRM opcode (spec R121). -/
def legalModRM (op m : Byte) : Bool :=
  let direct := modrmMode m == 0b00#2 && modrmRm m == 0b110#3
  ((op == 0x8B#8 || op == 0x03#8) && (modrmMode m == 0b11#2 || direct)) ||
  ((op == 0x89#8 || op == 0x01#8) && direct) ||
  (op == 0x81#8 && modrmMode m == 0b11#2 && modrmReg m == 0b000#3 && modrmRm m != 0b000#3)

/-- The little-endian 16-bit field at byte offset `k`, its low byte fetched first (spec R108, R140). -/
def fetchField (fetch : Nat → Except RunError Byte) (k : Nat) : Except RunError Word := do
  let lo ← fetch k
  let hi ← fetch (k + 1)
  pure (joinBytes hi lo)

/-- The part of spec R140 after a ModRM opcode `op`: fetch the ModRM byte, check it before any later
byte is fetched (spec R122), then fetch the address or the immediate. -/
def decodeModRM (fetch : Nat → Except RunError Byte) (op : Byte) :
    Except RunError (Instr × Nat) := do
  let m ← fetch 1
  let reg := Reg.ofNumber (modrmReg m)
  let rm := Reg.ofNumber (modrmRm m)
  if legalModRM op m = false then .error (.unknownOpcode op (some m))
  else if op = 0x81#8 then
    let n ← fetchField fetch 2
    pure (.addRI rm n, 4)
  else if modrmMode m = 0b11#2 then
    pure (if op = 0x8B#8 then .movRR reg rm else .addRR reg rm, 2)
  else
    let a ← fetchField fetch 2
    if op = 0x8B#8 then pure (.movRM reg a, 4)
    else if op = 0x03#8 then pure (.addRM reg a, 4)
    else if op = 0x89#8 then pure (.movMR a reg, 4)
    else pure (.addMR a reg, 4)

/-- The decode function of spec R140: an instruction and its length in bytes, or the first error met.
`fetch k` is the byte at offset `k` of the instruction, or the error its fetch raises. -/
def decodeWith (fetch : Nat → Except RunError Byte) : Except RunError (Instr × Nat) := do
  let op ← fetch 0
  if op.extractLsb' 3 5 = 0b10111#5 then
    let n ← fetchField fetch 1
    pure (.movRI (Reg.ofNumber (op.extractLsb' 0 3)) n, 3)
  else if op = 0x05#8 then
    let n ← fetchField fetch 1
    pure (.addAI n, 3)
  else if op = 0xF4#8 then pure (.hlt, 1)
  else if hasModRM op then decodeModRM fetch op
  else .error (.unknownOpcode op none)

/-- The byte at address `a` of a byte sequence: past its end the fetch raises `EndOfStream`
(spec R66, R306). -/
def streamByte (bytes : List Byte) (a : Nat) : Except RunError Byte :=
  match bytes[a]? with
  | some b => .ok b
  | none => .error (.endOfStream a)

/-- The decode direction of the encoder utility: the instruction at an offset of a byte sequence
(spec R18). -/
def decodeBytes (bytes : List Byte) (offset : Nat) : Except RunError (Instr × Nat) :=
  decodeWith fun k => streamByte bytes (offset + k)

/-! ## The encoder -/

/-- The length in bytes of each form (spec R107, R110). -/
def Instr.length : Instr → Nat
  | .movRI _ _ => 3
  | .movRR _ _ => 2
  | .movRM _ _ => 4
  | .movMR _ _ => 4
  | .addRR _ _ => 2
  | .addRM _ _ => 4
  | .addMR _ _ => 4
  | .addAI _ => 3
  | .addRI _ _ => 4
  | .hlt => 1

/-- The bytes of a register-direct form: `opcode`, ModRM `11 reg rm` (spec R101 format RR). -/
def encodeDirect (opcode : Byte) (reg rm : Reg) : List Byte :=
  [opcode, modrm 0b11#2 reg.number rm.number]

/-- The bytes of a direct memory form: `opcode`, ModRM `00 reg 110`, the address (spec R101 format RM). -/
def encodeMemory (opcode : Byte) (reg : Reg) (a : Word) : List Byte :=
  [opcode, modrm 0b00#2 reg.number 0b110#3, lo8 a, hi8 a]

/-- The bytes of an instruction: the ten rows of spec R152. -/
def encode : Instr → List Byte
  | .movRI d n => [movImmediateOpcode d.number, lo8 n, hi8 n]
  | .movRR d s => encodeDirect 0x8B#8 d s
  | .movRM d a => encodeMemory 0x8B#8 d a
  | .movMR a s => encodeMemory 0x89#8 s a
  | .addRR d s => encodeDirect 0x03#8 d s
  | .addRM d a => encodeMemory 0x03#8 d a
  | .addMR a s => encodeMemory 0x01#8 s a
  | .addAI n => [0x05#8, lo8 n, hi8 n]
  | .addRI d n => [0x81#8, modrm 0b11#2 0b000#3 d.number, lo8 n, hi8 n]
  | .hlt => [0xF4#8]

/-! ## Words of the opcode table -/

/-- The bytes, in address order, of a row's word as spec/opcode_table.json numbers it: its fields put
byte 0 of an `n`-byte row in the row's `n`-th, most significant, byte (byte 0 of `MOV r16, imm16` is
bits 23 to 16). Zero bytes follow, up to the longest instruction. DEDUCED, log entry 4. -/
def tableBytes (nbits w : Nat) : List Byte :=
  let n := (nbits + 7) / 8
  (List.range n).map (fun k => BitVec.ofNat 8 (w / 256 ^ (n - 1 - k))) ++
    List.replicate (Config.longestInstruction - n) 0x00#8

/-- The instruction the decoder reads from a row's word. -/
def decodeTableWord (nbits w : Nat) : Option Instr :=
  match decodeBytes (tableBytes nbits w) 0 with
  | .ok (i, _) => some i
  | .error _ => none

end Sys2Proof
end

