-- ==== Sys2Proof/Machine/State.lean ====
section
/-! DEFINITION. The state of one run (spec `10_state.md`), the reasons a step can stop, and reset. -/

namespace Sys2Proof.Machine

/-- The eight general registers, 16 bits each (spec R9, R30). None is hardwired, aliased or banked
(spec R32, R33, R35). -/
structure RegFile where
  ax : Word
  cx : Word
  dx : Word
  bx : Word
  sp : Word
  bp : Word
  si : Word
  di : Word
deriving DecidableEq, Repr

/-- The run state (spec R39). `faulted e addr` holds the error with its information and the address of
the first byte of the instruction that raised it (spec R300, R310; log entry 5). -/
inductive RunState where
  | running
  | halted
  | faulted (error : RunError) (addr : Word)
deriving DecidableEq, Repr

/-- The 65536 bytes of memory (spec R43), as the list of the bytes that are not 0x00, the reset value of
every byte (spec R44). Its canonical form is `Memory.wf`. -/
abbrev Memory := List Host.Cell

/-- The complete state of one run (spec `10_state.md`): there are no flags, no modes and no other
control or status registers (spec R41, R42, R320). -/
structure State where
  /-- The general registers (spec R30). -/
  regs : RegFile
  /-- The instruction pointer (spec R36, R37). -/
  ip : Word
  /-- The run state (spec R39). -/
  run : RunState
  /-- Memory (spec R43). -/
  mem : Memory
  /-- The loaded length `L`, 0 to 65536, constant during a run (spec R40). -/
  len : Fin (Config.memorySize + 1)
deriving DecidableEq, Repr

/-- Why a step cannot be taken. The machine's own errors are not faults of this kind: each leads to a
next state whose run state is `faulted` (spec R310). Both constructors are raised by `step` alone, on a
run that has ended (spec R411). Both are safe: the spec gives the machine no step there (log entry 3). -/
inductive Fault where
  /-- Raised by `step` on a run that has reached HLT: no step follows `Halted` (spec R411). Safe. -/
  | runHalted
  /-- Raised by `step` on a run that has raised an error: no step follows `Faulted` (spec R411). Safe. -/
  | runFaulted (error : RunError) (addr : Word)
deriving DecidableEq, Repr

/-- Why the model gives no meaning. -/
inductive Refusal where
  /-- Raised by an arm of `exec` whose instruction has no meaning yet. No arm raises it: every
  instruction is modelled. Safe. -/
  | notModelled (mnemonic : String)
deriving DecidableEq, Repr

/-- The machine right after reset, a fresh instance before a byte stream is loaded, which is also the
machine that holds the empty byte stream: every register 0, `ip = 0`, `Running`, every byte of memory
0x00, `L = 0` (spec R44, R400, R401; log entry 2). -/
def State.reset : State where
  regs := { ax := 0#16, cx := 0#16, dx := 0#16, bx := 0#16, sp := 0#16, bp := 0#16, si := 0#16, di := 0#16 }
  ip := 0#16
  run := .running
  mem := []
  len := 0

end Sys2Proof.Machine
end

