-- ==== Sys2Proof/Machine/Ops.lean ====
section
/-! DEFINITION. The named operations over registers, memory and the run state: every meaning is written
over these. -/

namespace Sys2Proof.Machine

/-! ## Registers -/

/-- The register numbered as `r` (spec R30). -/
def RegFile.get (f : RegFile) : Reg → Word
  | .ax => f.ax
  | .cx => f.cx
  | .dx => f.dx
  | .bx => f.bx
  | .sp => f.sp
  | .bp => f.bp
  | .si => f.si
  | .di => f.di

/-- The register file with `r` holding `v`. -/
def RegFile.set (f : RegFile) (r : Reg) (v : Word) : RegFile :=
  match r with
  | .ax => { f with ax := v }
  | .cx => { f with cx := v }
  | .dx => { f with dx := v }
  | .bx => { f with bx := v }
  | .sp => { f with sp := v }
  | .bp => { f with bp := v }
  | .si => { f with si := v }
  | .di => { f with di := v }

/-- `x[r]` (spec R23). -/
def State.reg (s : State) (r : Reg) : Word := s.regs.get r

/-- `x[r] <- v` (spec R23). -/
def State.setReg (s : State) (r : Reg) (v : Word) : State := { s with regs := s.regs.set r v }

/-! ## Memory -/

/-- The canonical form from address `lo` on: addresses strictly rising and inside memory, no entry that
holds the 0x00 an unlisted address reads as. -/
def Memory.wfFrom (lo : Nat) : Memory → Bool
  | [] => true
  | (a, b) :: rest =>
    decide (lo ≤ a) && decide (a < Config.memorySize) && b != 0x00#8 && Memory.wfFrom (a + 1) rest

/-- The one canonical form of memory: two memories that read alike everywhere are equal lists. -/
def Memory.wf (m : Memory) : Bool := Memory.wfFrom 0 m

/-- The byte an unlisted address reads as: "zero-initialized" (spec R44). -/
def unlistedByte : Byte := 0x00#8

/-- `Mem[a]` (spec R23). -/
def Memory.read : Memory → Nat → Byte
  | [], _ => unlistedByte
  | (k, b) :: rest, a => if k = a then b else Memory.read rest a

/-- List the byte `b` at `a`, in address order. -/
def Memory.insert (a : Nat) (b : Byte) : Memory → Memory
  | [] => [(a, b)]
  | (k, c) :: rest =>
    if a < k then (a, b) :: (k, c) :: rest
    else if a = k then (a, b) :: rest
    else (k, c) :: Memory.insert a b rest

/-- Unlist the byte at `a`. -/
def Memory.erase (a : Nat) : Memory → Memory
  | [] => []
  | (k, c) :: rest => if k = a then Memory.erase a rest else (k, c) :: Memory.erase a rest

/-- `Mem[a] <- b` (spec R23), keeping the canonical form. -/
def Memory.write (m : Memory) (a : Nat) (b : Byte) : Memory :=
  if b = unlistedByte then m.erase a else m.insert a b

/-- `MemRead(a, 2)`: little-endian (spec R61). -/
def Memory.readWord (m : Memory) (a : Word) : Word :=
  joinBytes (m.read (a.toNat + 1)) (m.read a.toNat)

/-- `MemWrite(a, 2, v)`: little-endian (spec R61). -/
def Memory.writeWord (m : Memory) (a : Word) (v : Word) : Memory :=
  (m.write a.toNat (lo8 v)).write (a.toNat + 1) (hi8 v)

/-- The bytes of a list stored one after the other from address `a` on, as a load does (spec R401). -/
def Memory.store (m : Memory) (a : Nat) : List Byte → Memory
  | [] => m
  | b :: rest => Memory.store (m.write a b) (a + 1) rest

/-! ## Instruction fetch and the instruction pointer -/

/-- `FetchByte(a)`: the byte at `a` below the loaded length, `EndOfStream` at or past it (spec R66). -/
def State.fetchByte (s : State) (a : Nat) : Except RunError Byte :=
  if a < s.len.val then .ok (s.mem.read a) else .error (.endOfStream a)

/-- `decode(Mem, L, ip)`: the instruction at `ip` and its length, or the error its decoding raises
(spec R140). -/
def State.decodeAt (s : State) : Except RunError (Instr × Nat) :=
  decodeWith fun k => s.fetchByte (s.ip.toNat + k)

/-- `ip <- ip_next` for an instruction of `n` bytes: modulo 2^16 (spec R37, R145). -/
def State.advance (s : State) (n : Nat) : State := { s with ip := s.ip + BitVec.ofNat 16 n }

/-! ## The run state -/

/-- What an error does: the run ends `Faulted` with `ip` left at the instruction, and nothing else
changes (spec R310, R311). There is no handler, and no return from an error (spec R316). -/
def State.raise (s : State) (e : RunError) : State := { s with run := .faulted e s.ip }

/-- What HLT does to the run state (spec R240). -/
def State.halt (s : State) : State := { s with run := .halted }

/-- The end of a meaning: its writes if nothing raised, else the error and none of them (spec R145,
R311). -/
def finish (s : State) (r : Except RunError State) : Host.Outcome State Fault Refusal :=
  match r with
  | .ok t => .next t
  | .error e => .next (s.raise e)

/-- The last line of the step of spec R145: a completed instruction other than HLT that ends at 0xFFFF
is followed by a fetch at 0x10000, which raises `EndOfStream` with the instruction's writes standing
(D21; log entry 6). `s` is the state before the instruction and `n` its length. -/
def afterExec (s : State) (i : Instr) (n : Nat) (o : Host.Outcome State Fault Refusal) :
    Host.Outcome State Fault Refusal :=
  match o with
  | .next t =>
    if i ≠ .hlt ∧ s.ip.toNat + n = Config.memorySize ∧ t.run = .running then
      .next (t.raise (.endOfStream Config.memorySize))
    else .next t
  | .fault f => .fault f
  | .refused r => .refused r

end Sys2Proof.Machine

namespace Sys2Proof

/-! ## Error kinds and codes -/

/-- The numeric code of an error kind (spec R300). -/
def ErrorKind.code : ErrorKind → Nat
  | .invalidOperand => 1
  | .illegalOperandCombination => 2
  | .unsupportedEncoding => 3
  | .unknownOpcode => 4
  | .invalidRegisterId => 5
  | .endOfStream => 6
  | .addressOutOfRange => 7
  | .programTooLarge => 8

/-- The kind of an error of the execute unit (spec R300). -/
def RunError.kind : RunError → ErrorKind
  | .unknownOpcode _ _ => .unknownOpcode
  | .invalidRegisterId => .invalidRegisterId
  | .endOfStream _ => .endOfStream
  | .addressOutOfRange _ => .addressOutOfRange

/-- The kind of an error at load (spec R300). -/
def LoadError.kind : LoadError → ErrorKind
  | .programTooLarge _ => .programTooLarge

/-- The kind of an error of the translation stages (spec R300). -/
def TranslateError.kind : TranslateError → ErrorKind
  | .invalidOperand _ _ => .invalidOperand
  | .illegalOperandCombination _ => .illegalOperandCombination
  | .unsupportedEncoding _ => .unsupportedEncoding
  | .unknownOpcode _ _ => .unknownOpcode

end Sys2Proof
end

