-- ==== Sys2Proof/Machine/Operands.lean ====
section
/-! DEFINITION. The operand forms: a register is `State.reg` and `State.setReg`, an immediate is used as
it is (spec R108), and a memory operand is the 16-bit word at an absolute address (spec R109). -/

namespace Sys2Proof.Machine

/-- A word whose second byte would lie at 0x10000 is outside memory: the access raises and does not
wrap to address 0 (spec R65, R304). Every other address, odd or even, is accessible (spec R64, R70). -/
def checkAddress (a : Word) : Except RunError Unit :=
  if a = 0xFFFF#16 then .error (.addressOutOfRange a) else .ok ()

/-- The value of a memory operand. -/
def State.loadWord (s : State) (a : Word) : Except RunError Word := do
  checkAddress a
  pure (s.mem.readWord a)

/-- The state with a memory operand written. -/
def State.storeWord (s : State) (a : Word) (v : Word) : Except RunError State := do
  checkAddress a
  pure { s with mem := s.mem.writeWord a v }

end Sys2Proof.Machine
end

