-- ==== Sys2Proof/Machine/Add.lean ====
section
/-! DEFINITION. The five forms of ADD (spec `41_add.md`). -/

namespace Sys2Proof.Machine

/-- `ADD r16, r16` (spec R220). -/
def execAddRR (d r : Reg) (s : State) : Host.Outcome State Fault Refusal :=
  .next ((s.setReg d (add16 (s.reg d) (s.reg r))).advance 2)

/-- `ADD r16, [a]` (spec R222). -/
def execAddRM (d : Reg) (a : Word) (s : State) : Host.Outcome State Fault Refusal :=
  finish s do
    let v ← s.loadWord a
    pure ((s.setReg d (add16 (s.reg d) v)).advance 4)

/-- `ADD [a], r16` (spec R224). -/
def execAddMR (a : Word) (r : Reg) (s : State) : Host.Outcome State Fault Refusal :=
  finish s do
    let v ← s.loadWord a
    let t ← s.storeWord a (add16 v (s.reg r))
    pure (t.advance 4)

/-- `ADD AX, imm16` (spec R227). -/
def execAddAI (n : Word) (s : State) : Host.Outcome State Fault Refusal :=
  .next ((s.setReg .ax (add16 (s.reg .ax) n)).advance 3)

/-- `ADD r16, imm16` (spec R229). -/
def execAddRI (d : Reg) (n : Word) (s : State) : Host.Outcome State Fault Refusal :=
  .next ((s.setReg d (add16 (s.reg d) n)).advance 4)

end Sys2Proof.Machine
end

