-- ==== Sys2Proof/Machine/Hlt.lean ====
section
/-! DEFINITION. HLT, the one system instruction (spec `42_hlt.md`). -/

namespace Sys2Proof.Machine

/-- `HLT` (spec R240). -/
def execHlt (s : State) : Host.Outcome State Fault Refusal :=
  .next ((s.advance 1).halt)

end Sys2Proof.Machine
end

