-- ==== Sys2Proof/Machine/Mov.lean ====
section
/-! DEFINITION. The four forms of MOV (spec `40_mov.md`). -/

namespace Sys2Proof.Machine

/-- `MOV r16, imm16` (spec R200). -/
def execMovRI (d : Reg) (n : Word) (s : State) : Host.Outcome State Fault Refusal :=
  .next ((s.setReg d n).advance 3)

/-- `MOV r16, r16` (spec R202). -/
def execMovRR (d r : Reg) (s : State) : Host.Outcome State Fault Refusal :=
  .next ((s.setReg d (s.reg r)).advance 2)

/-- `MOV r16, [a]` (spec R204). -/
def execMovRM (d : Reg) (a : Word) (s : State) : Host.Outcome State Fault Refusal :=
  finish s do
    let v ← s.loadWord a
    pure ((s.setReg d v).advance 4)

/-- `MOV [a], r16` (spec R206). -/
def execMovMR (a : Word) (r : Reg) (s : State) : Host.Outcome State Fault Refusal :=
  finish s do
    let t ← s.storeWord a (s.reg r)
    pure (t.advance 4)

end Sys2Proof.Machine
end

