-- ==== Sys2Proof/Machine/Dispatch.lean ====
section
/-! DEFINITION. One arm per instruction. -/

namespace Sys2Proof.Machine

/-- `execute(i, ip_next)` of spec R145 on the state before the step, whose `ip` is the instruction's
first byte. -/
def exec (i : Instr) (s : State) : Host.Outcome State Fault Refusal :=
  match i with
  | .movRI d n => Sys2Proof.Machine.execMovRI d n s
  | .movRR d r => Sys2Proof.Machine.execMovRR d r s
  | .movRM d a => Sys2Proof.Machine.execMovRM d a s
  | .movMR a r => Sys2Proof.Machine.execMovMR a r s
  | .addRR d r => Sys2Proof.Machine.execAddRR d r s
  | .addRM d a => Sys2Proof.Machine.execAddRM d a s
  | .addMR a r => Sys2Proof.Machine.execAddMR a r s
  | .addAI n => Sys2Proof.Machine.execAddAI n s
  | .addRI d n => Sys2Proof.Machine.execAddRI d n s
  | .hlt => Sys2Proof.Machine.execHlt s

end Sys2Proof.Machine
end

