-- ==== Sys2Proof/Machine/Step.lean ====
section
/-! DEFINITION. One step of the execute unit, and a state whose next step runs a given word. -/

namespace Sys2Proof.Machine

/-- The step of spec R145: one whole instruction. A run that has ended has no step (spec R411). -/
def step (s : State) : Host.Outcome State Fault Refusal :=
  match s.run with
  | .halted => .fault .runHalted
  | .faulted e a => .fault (.runFaulted e a)
  | .running =>
    match s.decodeAt with
    | .error e => .next (s.raise e)
    | .ok (i, n) => afterExec s i n (exec i s)

/-- `s` with the instruction of a row's word placed where the next step fetches: its bytes at `ip` (at
address 0 if they would not fit below 0x10000 there), the loaded length long enough to fetch them, and
the run state `Running`. It stands for the load of a program from outside (log entries 2 and 8). -/
def State.withFetchWord (s : State) (nbits w : Nat) : State :=
  let bytes := tableBytes nbits w
  let base := if s.ip.toNat + (nbits + 7) / 8 ≤ Config.memorySize then s.ip.toNat else 0
  let fits := bytes.take (Config.memorySize - base)
  { s with
    ip := BitVec.ofNat 16 base
    run := .running
    mem := s.mem.store base fits
    len := ⟨max s.len.val (min Config.memorySize (base + fits.length)), by
      have := s.len.isLt
      omega⟩ }

end Sys2Proof.Machine
end

