-- ==== Sys2Proof/Machine/Encoder.lean ====
section
/-! DEFINITION. The bidirectional encoder (spec R4, R17, R18): typed instructions, the form each one
takes, and the bytes of a program. Its decode direction is `decodeBytes`, the decoder of the execute
unit, with `Instr.typed`. -/

namespace Sys2Proof

/-- A typed operand (spec R24). -/
inductive TypedOperand where
  | register (r : Reg)
  | memory (a : Word)
  | immediate (n : Int)
  | none
deriving DecidableEq, Repr

/-- A typed instruction `{opcode, dst, src}`, its opcode a string tag (spec R2, R24). -/
structure TypedInstr where
  opcode : String
  dst : TypedOperand
  src : TypedOperand
deriving DecidableEq, Repr

/-- The low 16 bits of an immediate, `n mod 2^16` (spec R157). -/
def truncateImmediate (n : Int) : Word := BitVec.ofInt 16 n

/-- The rows of spec R152 for MOV. Every other pair of operands has no encoding (spec R154, R208). -/
def movForm : TypedOperand → TypedOperand → Except EncodeError Instr
  | .register d, .immediate n => .ok (.movRI d (truncateImmediate n))
  | .register d, .register s => .ok (.movRR d s)
  | .register d, .memory a => .ok (.movRM d a)
  | .memory a, .register s => .ok (.movMR a s)
  | _, _ => .error .unsupportedEncoding

/-- The rows of spec R152 for ADD, the immediate form chosen by the register number alone (spec R156).
Every other pair of operands has no encoding (spec R154, R230). -/
def addForm : TypedOperand → TypedOperand → Except EncodeError Instr
  | .register d, .immediate n =>
    .ok (if d = .ax then .addAI (truncateImmediate n) else .addRI d (truncateImmediate n))
  | .register d, .register s => .ok (.addRR d s)
  | .register d, .memory a => .ok (.addRM d a)
  | .memory a, .register s => .ok (.addMR a s)
  | _, _ => .error .unsupportedEncoding

/-- The row of spec R152 for HLT, which takes no operand (spec R155). -/
def hltForm : TypedOperand → TypedOperand → Except EncodeError Instr
  | .none, .none => .ok .hlt
  | _, _ => .error .unsupportedEncoding

/-- The form of a typed instruction, or the error `encode1` raises (spec R152 to R155). The opcode is
compared exactly (spec R153). -/
def TypedInstr.form (t : TypedInstr) : Except EncodeError Instr :=
  if t.opcode = "MOV" then movForm t.dst t.src
  else if t.opcode = "ADD" then addForm t.dst t.src
  else if t.opcode = "HLT" then hltForm t.dst t.src
  else .error (.unknownOpcode t.opcode)

/-- `encode1` (spec R152). -/
def encode1 (t : TypedInstr) : Except EncodeError (List Byte) := do
  let i ← t.form
  pure (encode i)

/-- An error of `encode1`, reported with the index of its instruction (spec R300; log entry 1). -/
def EncodeError.atIndex (index : Nat) : EncodeError → TranslateError
  | .unknownOpcode op => .unknownOpcode index op
  | .unsupportedEncoding => .unsupportedEncoding index

/-- `encodeProgram` for the instructions from number `index` on. -/
def encodeFrom (index : Nat) : List TypedInstr → Except TranslateError (List Byte)
  | [] => .ok []
  | t :: rest =>
    match encode1 t with
    | .error e => .error (e.atIndex index)
    | .ok bytes =>
      match encodeFrom (index + 1) rest with
      | .error e => .error e
      | .ok more => .ok (bytes ++ more)

/-- `encode(instrs)`: the concatenation in program order, or the first error and no bytes (spec R17,
R151). -/
def encodeProgram (program : List TypedInstr) : Except TranslateError (List Byte) :=
  encodeFrom 0 program

/-- The typed instruction that spec R140 returns for a decoded form. -/
def Instr.typed : Instr → TypedInstr
  | .movRI d n => ⟨"MOV", .register d, .immediate n.toNat⟩
  | .movRR d s => ⟨"MOV", .register d, .register s⟩
  | .movRM d a => ⟨"MOV", .register d, .memory a⟩
  | .movMR a s => ⟨"MOV", .memory a, .register s⟩
  | .addRR d s => ⟨"ADD", .register d, .register s⟩
  | .addRM d a => ⟨"ADD", .register d, .memory a⟩
  | .addMR a s => ⟨"ADD", .memory a, .register s⟩
  | .addAI n => ⟨"ADD", .register .ax, .immediate n.toNat⟩
  | .addRI d n => ⟨"ADD", .register d, .immediate n.toNat⟩
  | .hlt => ⟨"HLT", .none, .none⟩

/-- The decode direction as spec R18 gives it: a typed instruction and its length in bytes. -/
def decodeTyped (bytes : List Byte) (offset : Nat) : Except RunError (TypedInstr × Nat) := do
  let (i, n) ← decodeBytes bytes offset
  pure (i.typed, n)

end Sys2Proof
end

