-- ==== Sys2Proof/Machine/FrontEnd.lean ====
section
/-! DEFINITION. The assembler front end (spec R5, R160 to R169): the Operand Typer, the Validator, the
order of the translation passes, and the assembly spelling. -/

namespace Sys2Proof

/-! ## The Operand Typer -/

/-- The name of a register, as the register-name table of the Typer has it (spec R30, R161). -/
def Reg.name : Reg → String
  | .ax => "AX"
  | .cx => "CX"
  | .dx => "DX"
  | .bx => "BX"
  | .sp => "SP"
  | .bp => "BP"
  | .si => "SI"
  | .di => "DI"

/-- The register of a name, matched exactly and case-sensitively (spec R161). -/
def Reg.ofName (s : String) : Option Reg := Reg.all.find? fun r => r.name == s

/-- The value of an ASCII digit `0` to `9`. -/
def digitValue (c : Char) : Option Nat :=
  if '0'.toNat ≤ c.toNat ∧ c.toNat ≤ '9'.toNat then some (c.toNat - '0'.toNat) else none

/-- The value of a run of digits read after digits of value `acc`. -/
def digitsValue (acc : Nat) : List Char → Option Nat
  | [] => some acc
  | c :: rest =>
    match digitValue c with
    | some d => digitsValue (acc * 10 + d) rest
    | none => none

/-- The value of a "purely decimal" text: one or more digits and nothing else, leading zeros allowed
(spec R162). -/
def decimalValue : List Char → Option Nat
  | [] => none
  | c :: rest => digitsValue 0 (c :: rest)

/-- The text between a leading `[` and a closing `]`, if that is how the text stands (spec R163). -/
def bracketInterior : List Char → Option (List Char)
  | '[' :: rest => if rest.getLast? = some ']' then some rest.dropLast else none
  | _ => none

/-- The Operand Typer, `none` where it raises `InvalidOperand`: a register name, a bracketed decimal
address of 0 to 65535, a decimal immediate that fits an i32, in that order; the empty string is no
operand (spec R161 to R163). -/
def typeOperand (s : String) : Option TypedOperand :=
  if s = "" then some .none
  else match Reg.ofName s with
    | some r => some (.register r)
    | none =>
      match bracketInterior s.toList with
      | some interior =>
        match decimalValue interior with
        | some v => if v < Config.memorySize then some (.memory (BitVec.ofNat 16 v)) else none
        | none => none
      | none =>
        match decimalValue s.toList with
        | some v => if v ≤ Config.largestImmediate then some (.immediate v) else none
        | none => none

/-- One operand of instruction number `index` typed (spec R300). -/
def typeAt (index : Nat) (s : String) : Except TranslateError TypedOperand :=
  match typeOperand s with
  | some x => .ok x
  | none => .error (.invalidOperand index s)

/-- One resolved triple `(opcode, operand1, operand2)`, the core's input (spec R6). -/
structure Triple where
  opcode : String
  operand1 : String
  operand2 : String
deriving DecidableEq, Repr

/-- The Typer pass from instruction number `index` on: program order, operand1 before operand2, the
first error reported (spec R168). -/
def typeFrom (index : Nat) : List Triple → Except TranslateError (List TypedInstr)
  | [] => .ok []
  | t :: rest => do
    let dst ← typeAt index t.operand1
    let src ← typeAt index t.operand2
    let more ← typeFrom (index + 1) rest
    pure (⟨t.opcode, dst, src⟩ :: more)

/-! ## The Validator -/

/-- The four operand types (spec R166). -/
inductive OperandType where
  | register | memory | immediate | none
deriving DecidableEq, Repr

/-- The type of an operand. -/
def TypedOperand.type : TypedOperand → OperandType
  | .register _ => .register
  | .memory _ => .memory
  | .immediate _ => .immediate
  | .none => .none

/-- The legality table of spec R165 and R166. An opcode it has no row for passes (spec R167). -/
def legalOperands (opcode : String) (dst src : OperandType) : Bool :=
  if opcode = "MOV" then
    dst != .none && src != .none && !(dst == .memory && src == .memory) &&
      !(dst == .memory && src == .immediate)
  else if opcode = "ADD" then
    dst != .none && src != .none && !(dst == .memory && src == .memory)
  else if opcode = "HLT" then dst == .none && src == .none
  else true

/-- Whether the Validator passes an instruction. -/
def TypedInstr.legal (t : TypedInstr) : Bool := legalOperands t.opcode t.dst.type t.src.type

/-- The Validator from instruction number `index` on: the first illegal instruction is reported
(spec R164). -/
def validateFrom (index : Nat) : List TypedInstr → Except TranslateError Unit
  | [] => .ok ()
  | t :: rest =>
    if t.legal then validateFrom (index + 1) rest else .error (.illegalOperandCombination index)

/-- `validate(instructions)` (spec R164). It changes nothing. -/
def validate (program : List TypedInstr) : Except TranslateError Unit := validateFrom 0 program

/-! ## Translation -/

/-- The three translation stages as whole passes: the Typer over the program, then the Validator, then
the encoder; the first error ends it (spec R168, R314). -/
def translateProgram (program : List Triple) : Except TranslateError (List Byte) := do
  let typed ← typeFrom 0 program
  validate typed
  encodeProgram typed

/-! ## Assembly spelling -/

/-- An operand as the listings of the spec write it (spec R169). DESIGN CHOICE: an immediate below 0, which
the front end cannot write (spec R162), is spelled with a minus sign (log entry 10). -/
def TypedOperand.spelling : TypedOperand → String
  | .register r => r.name
  | .memory a => "[" ++ Nat.repr a.toNat ++ "]"
  | .immediate n => Int.repr n
  | .none => ""

/-- An instruction as the listings of the spec write it: `MNEMONIC dst, src`, or the mnemonic alone for
HLT (spec R169). R169 gives no form for one operand. DEDUCED: a destination without a source is written
`HLT AX`, as `95_test_vectors.md` writes it, and no operands as the mnemonic alone for every opcode.
DESIGN CHOICE: a source without a destination keeps its place after the comma, `MOV , AX` (log entry
10). -/
def TypedInstr.spelling (t : TypedInstr) : String :=
  if t.dst = .none ∧ t.src = .none then t.opcode
  else if t.src = .none then t.opcode ++ " " ++ t.dst.spelling
  else t.opcode ++ " " ++ t.dst.spelling ++ ", " ++ t.src.spelling

end Sys2Proof
end

