-- ==== Sys2Proof/Machine/Run.lean ====
section
/-! DEFINITION. Load, the run loop and what the driver is told (spec R15, R16, R146, R400 to R412). -/

namespace Sys2Proof.Machine

/-- The load of a byte stream into a fresh machine (spec R400, R401): nothing of an earlier run enters
it (spec R19, R45). -/
def load (stream : List Byte) : Except LoadError State :=
  if h : stream.length < Config.memorySize + 1 then
    .ok { State.reset with mem := Memory.store [] 0 stream, len := ⟨stream.length, h⟩ }
  else .error (.programTooLarge stream.length)

/-- The run loop of spec R146 for at most `k` steps: it stops at the first state whose run state is
`Halted` or `Faulted`. -/
def runFor : Nat → State → State
  | 0, s => s
  | k + 1, s =>
    match step s with
    | .next t => runFor k t
    | .fault _ => s
    | .refused _ => s

/-- The report of a successful run: AX, BX, CX and DX (spec R16). -/
structure Snapshot where
  ax : Word
  bx : Word
  cx : Word
  dx : Word
deriving DecidableEq, Repr

/-- What the driver receives from the execute unit (spec R15, R410). -/
inductive Report where
  /-- The run reached HLT (spec R16). -/
  | finished (snapshot : Snapshot)
  /-- The run raised an error, at the instruction at `addr` (spec R310). -/
  | failed (error : RunError) (addr : Word)
  /-- The byte stream could not be loaded (spec R305). -/
  | notLoaded (error : LoadError)
  /-- The run has not ended. No run of `executeUnit` is left so (spec R424). -/
  | unfinished
deriving DecidableEq, Repr

/-- The report of a state. -/
def State.report (s : State) : Report :=
  match s.run with
  | .halted => .finished ⟨s.reg .ax, s.reg .bx, s.reg .cx, s.reg .dx⟩
  | .faulted e a => .failed e a
  | .running => .unfinished

/-- The execute unit, `run(byte_stream)`: load, then at most `L + 1` steps, after which every run has
ended (spec R15, R424). -/
def executeUnit (stream : List Byte) : Report :=
  match load stream with
  | .error e => .notLoaded e
  | .ok s => (runFor (stream.length + 1) s).report

/-- The full pipeline: the execute unit starts only on a byte stream the encoder produced in full
(spec R314). -/
def pipeline (program : List Triple) : Except TranslateError Report := do
  let stream ← translateProgram program
  pure (executeUnit stream)

end Sys2Proof.Machine
end

