-- ==== Sys2Proof/Safety.lean ====
section
/-! DEFINITION. The invariant of a run, and the terms the statements are written in. -/

namespace Sys2Proof

/-- A "purely decimal" text, as spec R162 says it: one or more of the ASCII digits and nothing else. -/
def IsDecimal (text : List Char) : Prop :=
  text ≠ [] ∧ ∀ c ∈ text, c ∈ ['0', '1', '2', '3', '4', '5', '6', '7', '8', '9']

/-- The number a text of digits writes. -/
def decimalNumber (text : List Char) : Nat :=
  text.foldl (fun acc c => acc * 10 + (c.toNat - '0'.toNat)) 0

/-- The immediate source of a typed instruction, if it has one, is a `u16`. -/
def TypedInstr.ImmediateFits (t : TypedInstr) : Prop :=
  ∀ n, t.src = .immediate n → 0 ≤ n ∧ n < 65536

/-- The register an instruction writes. -/
def Instr.destination : Instr → Option Reg
  | .movRI d _ => some d
  | .movRR d _ => some d
  | .movRM d _ => some d
  | .movMR _ _ => none
  | .addRR d _ => some d
  | .addRM d _ => some d
  | .addMR _ _ => none
  | .addAI _ => some .ax
  | .addRI d _ => some d
  | .hlt => none

/-- The address of the word an instruction stores to: its address field (spec R67, R109). -/
def Instr.storesTo : Instr → Option Word
  | .movRI _ _ => none
  | .movRR _ _ => none
  | .movRM _ _ => none
  | .movMR a _ => some a
  | .addRR _ _ => none
  | .addRM _ _ => none
  | .addMR a _ => some a
  | .addAI _ => none
  | .addRI _ _ => none
  | .hlt => none

/-- The address of the memory operand of an instruction that has one (spec R67). -/
def Instr.dataAddress : Instr → Option Word
  | .movRI _ _ => none
  | .movRR _ _ => none
  | .movRM _ a => some a
  | .movMR a _ => some a
  | .addRR _ _ => none
  | .addRM _ a => some a
  | .addMR a _ => some a
  | .addAI _ => none
  | .addRI _ _ => none
  | .hlt => none

end Sys2Proof

namespace Sys2Proof.Machine

/-- The instruction pointer agrees with the run state: a running machine is at or below the end of its
program (spec R37, R146), and a faulted one is left at the instruction that raised (spec R310). -/
def State.ipFits (s : State) : Prop :=
  match s.run with
  | .running => s.ip.toNat ≤ s.len.val
  | .halted => True
  | .faulted _ a => a = s.ip

/-- What every run keeps: memory is in canonical form and the instruction pointer fits. -/
structure State.Inv (s : State) : Prop where
  canonical : s.mem.wf = true
  ipFits : s.ipFits

/-- The run has ended (spec R410). -/
def State.Ended (s : State) : Prop := s.run ≠ .running

/-- The bytes of a list stand at the instruction pointer and can all be fetched. -/
def State.FetchesAt (s : State) (bytes : List Byte) : Prop :=
  ∀ k, (h : k < bytes.length) → s.fetchByte (s.ip.toNat + k) = .ok bytes[k]

/-- Every register other than `d` is as before. -/
def SameRegsBut (d : Reg) (s t : State) : Prop := ∀ r, r ≠ d → t.reg r = s.reg r

/-- Every register is as before. -/
def SameRegs (s t : State) : Prop := ∀ r, t.reg r = s.reg r

/-- Every byte of memory reads as before. -/
def SameMemory (s t : State) : Prop := ∀ a, t.mem.read a = s.mem.read a

/-- Every byte of memory but the two of the word at `a` reads as before. -/
def SameMemoryBut (a : Word) (s t : State) : Prop :=
  ∀ b, b ≠ a.toNat → b ≠ a.toNat + 1 → t.mem.read b = s.mem.read b

/-- The run state and the loaded length are as before, and `ip` has moved past `n` bytes. -/
def Advanced (n : Nat) (s t : State) : Prop :=
  t.run = s.run ∧ t.len = s.len ∧ t.ip = s.ip + BitVec.ofNat 16 n

end Sys2Proof.Machine
end

