-- ==== Sys2Proof/Certificates/Slice0/Obligations.lean ====
section
/-! DEFINITION. The statements for the provers. -/

open Sys2Proof Sys2Proof.Machine

/-! ## Encoding -/

/-- The decoder gives back every well-formed instruction wherever its encoding stands in a byte
sequence, with its length (spec R140, R141, R150). -/
def Obligations.DecodeOfEncode : Prop :=
  ∀ i : Instr, i.WellFormed → ∀ before after : List Byte,
    decodeBytes (before ++ encode i ++ after) before.length = .ok (i, (encode i).length)

/-- What the decoder accepts is the encoding of a well-formed instruction (spec R141). -/
def Obligations.DecoderAcceptsOnlyEncodings : Prop :=
  ∀ (bytes : List Byte) (offset n : Nat) (i : Instr),
    decodeBytes bytes offset = .ok (i, n) →
      i.WellFormed ∧ n = i.length ∧ (bytes.drop offset).take n = encode i

/-- Spec R150: both directions of the round trip over typed instructions, and its form for an immediate
above 65535. -/
def Obligations.TypedRoundTrip : Prop :=
  (∀ (t : TypedInstr) (bytes : List Byte), encode1 t = .ok bytes → t.ImmediateFits →
    decodeTyped bytes 0 = .ok (t, bytes.length)) ∧
  (∀ (t : TypedInstr) (bytes : List Byte) (n : Nat), decodeTyped bytes 0 = .ok (t, n) →
    encode1 t = .ok (bytes.take n)) ∧
  (∀ (t : TypedInstr) (bytes : List Byte) (v : Int), encode1 t = .ok bytes →
    t.src = .immediate v → 65535 < v →
    decodeTyped bytes 0 = .ok ({ t with src := .immediate (v % 65536) }, bytes.length))

/-- Spec R152: the ten rows of the encoding table, each byte by the table's own arithmetic. -/
def Obligations.EncodingTable : Prop :=
  let low (v : Int) : Byte := BitVec.ofInt 8 (v % 256)
  let high (v : Int) : Byte := BitVec.ofInt 8 (v / 256 % 256)
  let id (r : Reg) : Nat := r.number.toNat
  (∀ (d : Reg) (n : Int), encode1 ⟨"MOV", .register d, .immediate n⟩ =
    .ok [BitVec.ofNat 8 (0xB8 + id d), low (n % 65536), high (n % 65536)]) ∧
  (∀ d s : Reg, encode1 ⟨"MOV", .register d, .register s⟩ =
    .ok [0x8B#8, BitVec.ofNat 8 (0xC0 + 8 * id d + id s)]) ∧
  (∀ (d : Reg) (a : Word), encode1 ⟨"MOV", .register d, .memory a⟩ =
    .ok [0x8B#8, BitVec.ofNat 8 (0x06 + 8 * id d), low a.toNat, high a.toNat]) ∧
  (∀ (a : Word) (s : Reg), encode1 ⟨"MOV", .memory a, .register s⟩ =
    .ok [0x89#8, BitVec.ofNat 8 (0x06 + 8 * id s), low a.toNat, high a.toNat]) ∧
  (∀ d s : Reg, encode1 ⟨"ADD", .register d, .register s⟩ =
    .ok [0x03#8, BitVec.ofNat 8 (0xC0 + 8 * id d + id s)]) ∧
  (∀ (d : Reg) (a : Word), encode1 ⟨"ADD", .register d, .memory a⟩ =
    .ok [0x03#8, BitVec.ofNat 8 (0x06 + 8 * id d), low a.toNat, high a.toNat]) ∧
  (∀ (a : Word) (s : Reg), encode1 ⟨"ADD", .memory a, .register s⟩ =
    .ok [0x01#8, BitVec.ofNat 8 (0x06 + 8 * id s), low a.toNat, high a.toNat]) ∧
  (∀ n : Int, encode1 ⟨"ADD", .register .ax, .immediate n⟩ =
    .ok [0x05#8, low (n % 65536), high (n % 65536)]) ∧
  (∀ (d : Reg) (n : Int), id d ≠ 0 → encode1 ⟨"ADD", .register d, .immediate n⟩ =
    .ok [0x81#8, BitVec.ofNat 8 (0xC0 + id d), low (n % 65536), high (n % 65536)]) ∧
  encode1 ⟨"HLT", .none, .none⟩ = .ok [0xF4#8]

/-- Spec R153, R154 and R155: an opcode other than the three is unknown, and of the other instructions
exactly those with a row in spec R152 are encoded. -/
def Obligations.EncoderRefusesAllOtherOperands : Prop :=
  let rows : List (String × OperandType × OperandType) :=
    [("MOV", .register, .immediate), ("MOV", .register, .register), ("MOV", .register, .memory),
     ("MOV", .memory, .register), ("ADD", .register, .register), ("ADD", .register, .memory),
     ("ADD", .memory, .register), ("ADD", .register, .immediate), ("HLT", .none, .none)]
  ∀ t : TypedInstr,
    (t.opcode ∉ ["MOV", "ADD", "HLT"] → encode1 t = .error (.unknownOpcode t.opcode)) ∧
    (t.opcode ∈ ["MOV", "ADD", "HLT"] → (t.opcode, t.dst.type, t.src.type) ∉ rows →
      encode1 t = .error .unsupportedEncoding) ∧
    ((t.opcode, t.dst.type, t.src.type) ∈ rows → ∃ bytes, encode1 t = .ok bytes)

/-- A program's bytes are the concatenation of its instructions' bytes, in order, and the first error in
program order is reported with the index of its instruction and leaves no bytes (spec R151, R300). That
the index counts from 0 is the model's choice (log entry 1). -/
def Obligations.ProgramEncodingConcatenates : Prop :=
  (∀ (program : List TypedInstr) (parts : List (List Byte)),
    program.map encode1 = parts.map .ok → encodeProgram program = .ok parts.flatten) ∧
  (∀ (before after : List TypedInstr) (t : TypedInstr) (e : EncodeError),
    (∀ u ∈ before, ∃ bytes, encode1 u = .ok bytes) → encode1 t = .error e →
    encodeProgram (before ++ t :: after) = .error (e.atIndex before.length))

/-- Spec R113 and R156: the short form is the only encoding of `ADD AX, imm16`, and the long one, ModRM mode
11, reg 000 and rm the register's number, the only one of `ADD r16, imm16` for every other register; both
ways, with every byte. -/
def Obligations.AddImmediateHasOneEncoding : Prop :=
  let short (v : Int) (bytes : List Byte) : Prop :=
    ∃ lo hi, bytes = [0x05#8, lo, hi] ∧ v % 65536 = lo.toNat + 256 * hi.toNat
  let long (d : Reg) (v : Int) (bytes : List Byte) : Prop :=
    ∃ m lo hi, bytes = [0x81#8, m, lo, hi] ∧ modrmMode m = 0b11#2 ∧ modrmReg m = 0b000#3 ∧
      modrmRm m = d.number ∧ v % 65536 = lo.toNat + 256 * hi.toNat
  (∀ (d : Reg) (v : Int) (bytes : List Byte),
    encode1 ⟨"ADD", .register d, .immediate v⟩ = .ok bytes →
      if d = .ax then short v bytes else long d v bytes) ∧
  (∀ (bytes : List Byte) (d : Reg) (v : Int) (n : Nat),
    decodeTyped bytes 0 = .ok (⟨"ADD", .register d, .immediate v⟩, n) →
      if d = .ax then short v (bytes.take n) else long d v (bytes.take n))

/-- Spec R120 with the list of spec R111: a first byte outside the list raises `UnknownOpcode`, 0x00
among them, and the step of a machine that fetches one faults. -/
def Obligations.IllegalFirstByteIsUnknownOpcode : Prop :=
  ∀ (s : State) (op : Byte), s.run = .running → s.fetchByte s.ip.toNat = .ok op →
    op ∉ [0xB8#8, 0xB9#8, 0xBA#8, 0xBB#8, 0xBC#8, 0xBD#8, 0xBE#8, 0xBF#8,
          0x8B#8, 0x89#8, 0x03#8, 0x01#8, 0x05#8, 0x81#8, 0xF4#8] →
    step s = .next { s with run := .faulted (.unknownOpcode op none) s.ip }

/-- Spec R121: the ModRM bytes with which a ModRM opcode begins a decodable byte sequence are exactly
those of its table. -/
def Obligations.LegalModRMBytes : Prop :=
  let direct : List Byte := [0x06#8, 0x0E#8, 0x16#8, 0x1E#8, 0x26#8, 0x2E#8, 0x36#8, 0x3E#8]
  ∀ op m : Byte, op ∈ [0x8B#8, 0x03#8, 0x89#8, 0x01#8, 0x81#8] →
    ((∃ rest i n, decodeBytes (op :: m :: rest) 0 = .ok (i, n)) ↔
      ((op = 0x8B#8 ∨ op = 0x03#8) ∧ (0xC0 ≤ m.toNat ∨ m ∈ direct)) ∨
      ((op = 0x89#8 ∨ op = 0x01#8) ∧ m ∈ direct) ∨
      (op = 0x81#8 ∧ 0xC1 ≤ m.toNat ∧ m.toNat ≤ 0xC7))

/-- Spec R122: an illegal ModRM byte raises `UnknownOpcode` whatever follows it, bytes that are not
there included. -/
def Obligations.IllegalModRMByteIsUnknownOpcode : Prop :=
  ∀ (op m : Byte) (rest : List Byte), op ∈ [0x8B#8, 0x03#8, 0x89#8, 0x01#8, 0x81#8] →
    legalModRM op m = false →
    decodeBytes (op :: m :: rest) 0 = .error (.unknownOpcode op (some m))

/-- An instruction cut short by the end of the byte sequence raises `EndOfStream` at the first byte that
is not there (spec R303, R306). -/
def Obligations.TruncatedInstructionEndsStream : Prop :=
  ∀ i : Instr, i.WellFormed → ∀ (before : List Byte) (k : Nat), k < (encode i).length →
    decodeBytes (before ++ (encode i).take k) before.length = .error (.endOfStream (before.length + k))

/-- Spec R306: the decode direction raises only `UnknownOpcode` and `EndOfStream`, the latter for a byte
at or past the end of the sequence, and a step of the execute unit raises only its own three kinds; no
step raises `InvalidRegisterId` (spec R302). -/
def Obligations.OnlyDecodeAndAddressErrorsAreRaised : Prop :=
  (∀ (bytes : List Byte) (offset : Nat) (e : RunError), decodeBytes bytes offset = .error e →
    (∃ op m, e = .unknownOpcode op m) ∨ (∃ a, e = .endOfStream a ∧ bytes.length ≤ a)) ∧
  (∀ (s t : State) (e : RunError) (a : Word), step s = .next t → t.run = .faulted e a →
    e.kind = .unknownOpcode ∨ e.kind = .endOfStream ∨ e.kind = .addressOutOfRange)

/-- Words written out from spec R110, one or two of each family, decode to their instructions. -/
def Obligations.WrittenWordsDecode : Prop :=
  decodeBytes [0xB8#8, 0x05#8, 0x00#8] 0 = .ok (.movRI .ax 5#16, 3) ∧
  decodeBytes [0x8B#8, 0xD8#8] 0 = .ok (.movRR .bx .ax, 2) ∧
  decodeBytes [0x89#8, 0x06#8, 0x04#8, 0x00#8] 0 = .ok (.movMR 4#16 .ax, 4) ∧
  decodeBytes [0x03#8, 0x16#8, 0xC8#8, 0x00#8] 0 = .ok (.addRM .dx 200#16, 4) ∧
  decodeBytes [0x81#8, 0xC3#8, 0x64#8, 0x00#8] 0 = .ok (.addRI .bx 100#16, 4) ∧
  decodeBytes [0xF4#8] 0 = .ok (.hlt, 1)

/-! ## The front end -/

/-- Spec R30: the numbers of the registers, each register read back from its number and from its name. -/
def Obligations.RegisterTable : Prop :=
  Reg.all.map (fun r => (r.name, r.number)) =
    [("AX", 0#3), ("CX", 1#3), ("DX", 2#3), ("BX", 3#3), ("SP", 4#3), ("BP", 5#3), ("SI", 6#3), ("DI", 7#3)] ∧
  (∀ r : Reg, Reg.ofNumber r.number = r ∧ Reg.ofName r.name = some r) ∧
  (∀ k : BitVec 3, (Reg.ofNumber k).number = k)

/-- Spec R161, R162 and R163: the Typer accepts the empty string, the register names, the bracketed
decimal addresses below 65536 and the decimal immediates that fit an i32, each with its value, and
nothing else. -/
def Obligations.TyperAcceptsExactly : Prop :=
  ∀ (s : String) (x : TypedOperand), typeOperand s = some x ↔
    (s = "" ∧ x = .none) ∨
    (∃ r : Reg, s = r.name ∧ x = .register r) ∨
    (∃ ds, IsDecimal ds ∧ decimalNumber ds ≤ 65535 ∧ s.toList = '[' :: ds ++ [']'] ∧
      x = .memory (BitVec.ofNat 16 (decimalNumber ds))) ∨
    (∃ ds, IsDecimal ds ∧ decimalNumber ds ≤ 2147483647 ∧ s.toList = ds ∧
      x = .immediate (decimalNumber ds))

/-- Spec R165: the Validator's legality table, for every typed instruction, its destination and source by
their types: which it calls illegal, and that it passes an instruction exactly where it calls it legal. -/
def Obligations.ValidatorTable : Prop :=
  ∀ t : TypedInstr,
    (t.opcode = "MOV" → (t.legal = false ↔
      (t.dst.type = .memory ∧ t.src.type = .memory) ∨ (t.dst.type = .memory ∧ t.src.type = .immediate) ∨
        t.dst.type = .none ∨ t.src.type = .none)) ∧
    (t.opcode = "ADD" → (t.legal = false ↔
      (t.dst.type = .memory ∧ t.src.type = .memory) ∨ t.dst.type = .none ∨ t.src.type = .none)) ∧
    (t.opcode = "HLT" → (t.legal = false ↔ ¬(t.dst.type = .none ∧ t.src.type = .none))) ∧
    (validate [t] = .ok () ↔ t.legal = true)

/-- Spec R167: an opcode other than the three passes the Validator and is unknown to the encoder. -/
def Obligations.UnknownOpcodePassesValidator : Prop :=
  ∀ t : TypedInstr, t.opcode ≠ "MOV" → t.opcode ≠ "ADD" → t.opcode ≠ "HLT" →
    validate [t] = .ok () ∧ encode1 t = .error (.unknownOpcode t.opcode)

/-- The Validator passes a program of legal instructions and reports the first illegal one (spec R164).
That the index reported counts from 0 is the model's choice (log entry 1). -/
def Obligations.ValidatorReportsFirstViolation : Prop :=
  (∀ program : List TypedInstr, (∀ t ∈ program, t.legal = true) → validate program = .ok ()) ∧
  (∀ (before after : List TypedInstr) (t : TypedInstr), (∀ u ∈ before, u.legal = true) →
    t.legal = false →
    validate (before ++ t :: after) = .error (.illegalOperandCombination before.length))

/-- The stages run as whole passes and the first error ends translation: an operand that has no type
anywhere in the program comes first, in program order and operand1 before operand2, then the Validator's
error, then the encoder's (spec R168). That the index reported counts from 0 is the model's choice (log
entry 1). -/
def Obligations.TranslationStageOrder : Prop :=
  (∀ (before after : List Triple) (t : Triple),
    (∀ u ∈ before, typeOperand u.operand1 ≠ none ∧ typeOperand u.operand2 ≠ none) →
    (typeOperand t.operand1 = none →
      translateProgram (before ++ t :: after) = .error (.invalidOperand before.length t.operand1)) ∧
    (typeOperand t.operand1 ≠ none → typeOperand t.operand2 = none →
      translateProgram (before ++ t :: after) = .error (.invalidOperand before.length t.operand2))) ∧
  (∀ (program : List Triple) (typed : List TypedInstr),
    program.map (fun t => (t.opcode, typeOperand t.operand1, typeOperand t.operand2)) =
      typed.map (fun t => (t.opcode, some t.dst, some t.src)) →
    (∀ e, validate typed = .error e → translateProgram program = .error e) ∧
    (validate typed = .ok () → translateProgram program = encodeProgram typed))

/-- The spelling of an operand is typed as that operand (spec R161, R169). -/
def Obligations.SpellingIsTyped : Prop :=
  (∀ r : Reg, typeOperand (TypedOperand.register r).spelling = some (.register r)) ∧
  (∀ a : Word, typeOperand (TypedOperand.memory a).spelling = some (.memory a)) ∧
  (∀ n : Nat, n ≤ 2147483647 → typeOperand (TypedOperand.immediate n).spelling = some (.immediate n))

/-! ## Reset, load and the run -/

/-- Reset leaves every register 0, `ip` 0, the run `Running`, every byte of memory 0x00 (spec R44,
R400). That its loaded length is 0, the empty stream's, is the model's choice (log entry 2). -/
def Obligations.ResetValues : Prop :=
  (∀ r : Reg, State.reset.reg r = 0#16) ∧ State.reset.ip = 0#16 ∧ State.reset.run = .running ∧
  (∀ a, State.reset.mem.read a = 0x00#8) ∧ State.reset.len.val = 0

/-- Spec R401, with the values of spec R44 and the refusal of spec R305: a stream of at most 65536 bytes
is loaded at address 0 into a machine that is otherwise all 0, a longer one is refused, and the empty
one faults on its first step. -/
def Obligations.LoadPlacesTheStream : Prop :=
  (∀ stream : List Byte, stream.length ≤ 65536 → ∃ s, load stream = .ok s ∧
    (∀ r : Reg, s.reg r = 0#16) ∧ s.ip = 0#16 ∧ s.run = .running ∧ s.len.val = stream.length ∧
    (∀ a, (h : a < stream.length) → s.mem.read a = stream[a]) ∧
    (∀ a, stream.length ≤ a → s.mem.read a = 0x00#8)) ∧
  (∀ stream : List Byte, 65536 < stream.length →
    load stream = .error (.programTooLarge stream.length) ∧
    executeUnit stream = .notLoaded (.programTooLarge stream.length)) ∧
  (∃ s, load [] = .ok s ∧ step s = .next { s with run := .faulted (.endOfStream 0) 0#16 })

/-- Spec R424: every run ends after at most `L + 1` steps. -/
def Obligations.EveryRunEndsWithinItsBound : Prop :=
  ∀ (stream : List Byte) (s : State), load stream = .ok s → (runFor (stream.length + 1) s).Ended

/-- From every state that meets the invariant, the run ends within the bytes that are left and one step
more (spec R146, R424). -/
def Obligations.EveryStateRunsToAnEnd : Prop :=
  ∀ s : State, s.Inv → (runFor (s.len.val - s.ip.toNat + 1) s).Ended

/-- The driver receives AX, BX, CX and DX of a run that halts, and the error of one that faults, never
a run without an end (spec R15, R16, R310). -/
def Obligations.DriverReport : Prop :=
  ∀ (stream : List Byte) (s : State), load stream = .ok s →
    let t := runFor (stream.length + 1) s
    (t.run = .halted ∧ executeUnit stream = .finished ⟨t.reg .ax, t.reg .bx, t.reg .cx, t.reg .dx⟩) ∨
    (∃ e a, t.run = .faulted e a ∧ executeUnit stream = .failed e a)

/-- Spec R411: no step follows `Halted` or `Faulted`, and a faulted run is never reported as a
success. -/
def Obligations.NoStepAfterTheEnd : Prop :=
  ∀ s : State, s.run ≠ .running →
    (∀ t, step s ≠ .next t) ∧ (∀ k, runFor k s = s) ∧
    (∀ e a, s.run = .faulted e a → ∀ shot, s.report ≠ .finished shot)

/-- Every step keeps the invariant: a running machine at or below the end of its program, a faulted one
left at its instruction (spec R37, R146, R310), and memory in canonical form, which is the model's choice
of how memory is held (log entry 7) and no rule of the spec. -/
def Obligations.StepKeepsInvariant : Prop :=
  ∀ s t : State, s.Inv → step s = .next t → t.Inv

/-- The invariant holds at reset. That the state before a load has `L = 0` is the model's choice (log entry
2), and so is the canonical form of memory (log entry 7); that `ip` is 0 and the run `Running` is spec
R44. -/
def Obligations.InvariantHoldsAtReset : Prop := State.reset.Inv

/-- The invariant holds of every loaded machine: `ip` fits the run state (spec R401, R44), and memory is in
canonical form, which is the model's choice (log entry 7). -/
def Obligations.InvariantHoldsAfterLoad : Prop :=
  ∀ (stream : List Byte) (s : State), load stream = .ok s → s.Inv

/-! ## The step -/

/-- A step runs the decoded instruction: it is `exec` of it, and where that instruction completes, is
not HLT and ends at 0xFFFF, `EndOfStream` is raised on the state it leaves (spec R145). That this error
records 65536 as the missing address is the model's choice (log entry 6). -/
def Obligations.StepRunsDecodedInstruction : Prop :=
  ∀ (s : State) (i : Instr) (n : Nat), s.run = .running → s.decodeAt = .ok (i, n) →
    i.WellFormed ∧ n = i.length ∧
    ∃ t, exec i s = .next t ∧
      step s = .next (if i ≠ .hlt ∧ s.ip.toNat + n = 65536 ∧ t.run = .running then
        { t with run := .faulted (.endOfStream 65536) t.ip } else t)

/-- A running machine whose next bytes are the encoding of an instruction that does not end at 0xFFFF
runs that instruction (spec R145, R152). -/
def Obligations.StepRunsEncodedInstruction : Prop :=
  ∀ (s : State) (i : Instr), i.WellFormed → s.run = .running → s.FetchesAt (encode i) →
    (s.ip.toNat + i.length ≠ 65536 ∨ i = .hlt) → step s = exec i s

/-- An instruction ends at 0xFFFF only where `L = 65536`; then `ip` becomes 0, HLT leaves the run `Halted`,
and any other completed instruction ends it `Faulted(EndOfStream, 0x0000)` with its writes standing
(spec R37). That the error records 65536 as the missing address
is the model's choice (log entry 6). -/
def Obligations.EndOfMemoryEndsTheRun : Prop :=
  ∀ (s : State) (i : Instr) (n : Nat), s.run = .running → s.decodeAt = .ok (i, n) →
    s.ip.toNat + n ≤ s.len.val ∧
    (s.ip.toNat + n = 65536 →
      s.len.val = 65536 ∧
      (i = .hlt → ∃ t, step s = .next t ∧ t.run = .halted ∧ t.ip = 0#16) ∧
      (i ≠ .hlt → ∀ t, exec i s = .next t → t.run = .running →
        t.ip = 0#16 ∧ step s = .next { t with run := .faulted (.endOfStream 65536) 0#16 }))

/-- An instruction after which the machine runs on is not HLT, and the next one stands at the address
its length past it, without wrap: control flow is sequential and the address only grows (spec R36,
R146, R242). -/
def Obligations.ControlFlowIsSequential : Prop :=
  ∀ s t : State, step s = .next t → t.run = .running →
    ∃ i n, s.decodeAt = .ok (i, n) ∧ i ≠ .hlt ∧ 0 < n ∧ t.ip.toNat = s.ip.toNat + n

/-- Only HLT ends a run `Halted` (spec R241). -/
def Obligations.OnlyHltHalts : Prop :=
  ∀ s t : State, step s = .next t → t.run = .halted → s.decodeAt = .ok (.hlt, 1)

/-- A step that raises changes no register and no byte of memory and leaves `ip` at the instruction; the
one error that follows writes is the `EndOfStream` after a completed instruction that ends at 0xFFFF,
whose writes stand (spec R311). That this error records 65536 as the missing address is the model's choice
(log entry 6). -/
def Obligations.ErrorsArePrecise : Prop :=
  ∀ (s t : State) (e : RunError) (a : Word), step s = .next t → t.run = .faulted e a →
    (t = { s with run := .faulted e s.ip }) ∨
    (∃ i n u, s.decodeAt = .ok (i, n) ∧ i ≠ .hlt ∧ s.ip.toNat + n = 65536 ∧ exec i s = .next u ∧
      u.run = .running ∧ t = { u with run := .faulted (.endOfStream 65536) u.ip } ∧ t.ip = 0#16)

/-- Spec R313: the order of the errors one instruction meets. -/
def Obligations.ErrorOrder : Prop :=
  ∀ s : State, s.run = .running →
    let a := s.ip.toNat
    let fails (e : RunError) : Prop := step s = .next { s with run := .faulted e s.ip }
    let field (op m : Byte) : Option Nat :=
      if op ∈ [0xB8#8, 0xB9#8, 0xBA#8, 0xBB#8, 0xBC#8, 0xBD#8, 0xBE#8, 0xBF#8, 0x05#8] then some 1
      else if hasModRM op = true ∧ (op = 0x81#8 ∨ modrmMode m = 0b00#2) then some 2 else none
    (s.len.val ≤ a → fails (.endOfStream a)) ∧
    (∀ op, s.fetchByte a = .ok op →
      (legalOpcode op = false → fails (.unknownOpcode op none)) ∧
      (hasModRM op = true → s.len.val ≤ a + 1 → fails (.endOfStream (a + 1))) ∧
      (∀ m, (hasModRM op = true → s.fetchByte (a + 1) = .ok m) →
        (hasModRM op = true → legalModRM op m = false → fails (.unknownOpcode op (some m))) ∧
        (legalOpcode op = true → (hasModRM op = true → legalModRM op m = true) →
          ∀ k, field op m = some k →
            (s.len.val ≤ a + k → fails (.endOfStream (a + k))) ∧
            (s.len.val = a + k + 1 → fails (.endOfStream (a + k + 1)))))) ∧
    (∀ i n, s.decodeAt = .ok (i, n) → i.dataAddress = some 0xFFFF#16 →
      fails (.addressOutOfRange 0xFFFF#16))

/-- A register that a step changes is the destination of the instruction it runs: SP, BP, SI and DI are
changed by nothing but a MOV or an ADD that names them (spec R34, R67). -/
def Obligations.OnlyTheDestinationRegisterChanges : Prop :=
  ∀ (s t : State) (r : Reg), step s = .next t → t.reg r ≠ s.reg r →
    ∃ i n, s.decodeAt = .ok (i, n) ∧ i.destination = some r

/-- A byte of memory that a step changes is one of the two of the word a store addresses, which is not
the one at 0xFFFF (spec R65, R67). -/
def Obligations.OnlyStoresChangeMemory : Prop :=
  ∀ (s t : State) (b : Nat), step s = .next t → t.mem.read b ≠ s.mem.read b →
    ∃ i n a, s.decodeAt = .ok (i, n) ∧ i.storesTo = some a ∧ a ≠ 0xFFFF#16 ∧
      (b = a.toNat ∨ b = a.toNat + 1)

/-- The loaded length is constant during a run (spec R40). -/
def Obligations.LoadedLengthIsConstant : Prop :=
  ∀ s t : State, step s = .next t → t.len = s.len

/-- What is executed depends only on `ip`, `L` and the bytes below `L`: a write at or above `L` never
changes it (spec R66, R73). -/
def Obligations.DecodingSeesOnlyTheProgram : Prop :=
  ∀ s t : State, s.ip = t.ip → s.len = t.len →
    (∀ a, a < s.len.val → s.mem.read a = t.mem.read a) → s.decodeAt = t.decodeAt

/-! ## Memory and arithmetic -/

/-- Spec R61: a word is read and written low byte first. -/
def Obligations.WordsAreLittleEndian : Prop :=
  ∀ (m : Memory) (a v : Word),
    (m.readWord a).extractLsb' 0 8 = m.read a.toNat ∧
    (m.readWord a).extractLsb' 8 8 = m.read (a.toNat + 1) ∧
    (m.writeWord a v).read a.toNat = v.extractLsb' 0 8 ∧
    (m.writeWord a v).read (a.toNat + 1) = v.extractLsb' 8 8 ∧
    (∀ b, b ≠ a.toNat → b ≠ a.toNat + 1 → (m.writeWord a v).read b = m.read b) ∧
    (m.writeWord a v).readWord a = v

/-- Two memories in canonical form that read alike at every address of the space are equal (spec R43,
R60). The canonical form is the model's choice (log entry 7). -/
def Obligations.CanonicalMemoriesAreEqual : Prop :=
  ∀ m m' : Memory, m.wf = true → m'.wf = true → (∀ a, a < 65536 → m.read a = m'.read a) → m = m'

/-- A word written by an instruction, the register's by `MOV [a], r16` and the sum's by `ADD [a], r16`, is
what every later fetch below `L` sees (spec R73). -/
def Obligations.StoredWordIsFetched : Prop :=
  ∀ (s : State) (a v : Word) (r : Reg) (i : Instr), a ≠ 0xFFFF#16 →
    ((i = .movMR a r ∧ v = s.reg r) ∨
      (i = .addMR a r ∧ v.toNat = ((s.mem.readWord a).toNat + (s.reg r).toNat) % 65536)) →
    ∃ t, exec i s = .next t ∧
      ∀ b, t.fetchByte b =
        if s.len.val ≤ b then .error (.endOfStream b)
        else if b = a.toNat then .ok (v.extractLsb' 0 8)
        else if b = a.toNat + 1 then .ok (v.extractLsb' 8 8)
        else s.fetchByte b

/-- Spec R65 and R304: each of the four memory forms at 0xFFFF raises `AddressOutOfRange` and changes
nothing but the run state. -/
def Obligations.TopOfMemoryIsOutOfRange : Prop :=
  ∀ (s : State) (r : Reg),
    let out : Host.Outcome State Fault Refusal :=
      .next { s with run := .faulted (.addressOutOfRange 0xFFFF#16) s.ip }
    exec (.movRM r 0xFFFF#16) s = out ∧ exec (.movMR 0xFFFF#16 r) s = out ∧
    exec (.addRM r 0xFFFF#16) s = out ∧ exec (.addMR 0xFFFF#16 r) s = out

/-- Spec R225: the sum is taken modulo 2^16. -/
def Obligations.SumIsModulo : Prop :=
  ∀ p q : Word, (add16 p q).toNat = (p.toNat + q.toNat) % 65536

/-- Every register holds what is written to it, and writing one leaves the others (spec R30, R33). -/
def Obligations.EveryRegisterHoldsItsValue : Prop :=
  ∀ (s : State) (d : Reg) (v : Word),
    (s.setReg d v).reg d = v ∧ SameRegsBut d s (s.setReg d v) ∧ SameMemory s (s.setReg d v)

/-! ## The instructions: completion, result and frame -/

/-- `MOV r16, imm16` (spec R200). -/
def Obligations.MovImmediateResult : Prop :=
  ∀ (s : State) (d : Reg) (n : Word), ∃ t, exec (.movRI d n) s = .next t ∧
    t.reg d = n ∧ SameRegsBut d s t ∧ SameMemory s t ∧ Advanced 3 s t

/-- `MOV r16, r16` (spec R202), a register moved to itself included. -/
def Obligations.MovRegisterResult : Prop :=
  ∀ (s : State) (d r : Reg), ∃ t, exec (.movRR d r) s = .next t ∧
    t.reg d = s.reg r ∧ SameRegsBut d s t ∧ SameMemory s t ∧ Advanced 2 s t

/-- `MOV r16, [a]` (spec R204) at every address but 0xFFFF. -/
def Obligations.MovLoadResult : Prop :=
  ∀ (s : State) (d : Reg) (a : Word), a ≠ 0xFFFF#16 → ∃ t, exec (.movRM d a) s = .next t ∧
    t.reg d = s.mem.read (a.toNat + 1) ++ s.mem.read a.toNat ∧
    SameRegsBut d s t ∧ SameMemory s t ∧ Advanced 4 s t

/-- `MOV [a], r16` (spec R206) at every address but 0xFFFF. -/
def Obligations.MovStoreResult : Prop :=
  ∀ (s : State) (a : Word) (r : Reg), a ≠ 0xFFFF#16 → ∃ t, exec (.movMR a r) s = .next t ∧
    t.mem.read a.toNat = (s.reg r).extractLsb' 0 8 ∧
    t.mem.read (a.toNat + 1) = (s.reg r).extractLsb' 8 8 ∧
    SameMemoryBut a s t ∧ SameRegs s t ∧ Advanced 4 s t

/-- `ADD r16, r16` (spec R220), a register doubled included. -/
def Obligations.AddRegisterResult : Prop :=
  ∀ (s : State) (d r : Reg), ∃ t, exec (.addRR d r) s = .next t ∧
    (t.reg d).toNat = ((s.reg d).toNat + (s.reg r).toNat) % 65536 ∧
    SameRegsBut d s t ∧ SameMemory s t ∧ Advanced 2 s t

/-- `ADD r16, [a]` (spec R222) at every address but 0xFFFF. -/
def Obligations.AddLoadResult : Prop :=
  ∀ (s : State) (d : Reg) (a : Word), a ≠ 0xFFFF#16 → ∃ t, exec (.addRM d a) s = .next t ∧
    (t.reg d).toNat = ((s.reg d).toNat + (s.mem.readWord a).toNat) % 65536 ∧
    SameRegsBut d s t ∧ SameMemory s t ∧ Advanced 4 s t

/-- `ADD [a], r16` (spec R224) at every address but 0xFFFF. -/
def Obligations.AddStoreResult : Prop :=
  ∀ (s : State) (a : Word) (r : Reg), a ≠ 0xFFFF#16 → ∃ t, exec (.addMR a r) s = .next t ∧
    (t.mem.readWord a).toNat = ((s.mem.readWord a).toNat + (s.reg r).toNat) % 65536 ∧
    SameMemoryBut a s t ∧ SameRegs s t ∧ Advanced 4 s t

/-- `ADD AX, imm16` (spec R227). -/
def Obligations.AddAccumulatorResult : Prop :=
  ∀ (s : State) (n : Word), ∃ t, exec (.addAI n) s = .next t ∧
    (t.reg .ax).toNat = ((s.reg .ax).toNat + n.toNat) % 65536 ∧
    SameRegsBut .ax s t ∧ SameMemory s t ∧ Advanced 3 s t

/-- `ADD r16, imm16` (spec R229, registers 1 to 7). That `exec` of the ill-formed `addRI .ax`, to which no
bytes decode, adds to AX is the model's choice (log entry 9). -/
def Obligations.AddImmediateResult : Prop :=
  ∀ (s : State) (d : Reg) (n : Word), ∃ t, exec (.addRI d n) s = .next t ∧
    (t.reg d).toNat = ((s.reg d).toNat + n.toNat) % 65536 ∧
    SameRegsBut d s t ∧ SameMemory s t ∧ Advanced 4 s t

/-- `HLT` (spec R240). -/
def Obligations.HltResult : Prop :=
  ∀ s : State, ∃ t, exec .hlt s = .next t ∧ t.run = .halted ∧ t.ip = s.ip + 1#16 ∧
    SameRegs s t ∧ SameMemory s t ∧ t.len = s.len
end

