-- ==== Sys2Proof/Laws/Decode.lean ====
section
/-! SUPPORT. The bit fields of bytes and words, and all that the decoder can answer. -/

namespace Sys2Proof

@[simp] theorem lo8_joinBytes (hi lo : Byte) : lo8 (joinBytes hi lo) = lo := by
  unfold lo8 joinBytes
  exact BitVec.extractLsb'_append_eq_right

@[simp] theorem hi8_joinBytes (hi lo : Byte) : hi8 (joinBytes hi lo) = hi := by
  unfold hi8 joinBytes
  exact BitVec.extractLsb'_append_eq_left

@[simp] theorem joinBytes_hi8_lo8 (v : Word) : joinBytes (hi8 v) (lo8 v) = v := by
  unfold hi8 lo8 joinBytes
  apply BitVec.eq_of_getLsbD_eq
  intro k hk
  simp only [BitVec.getLsbD_append, BitVec.getLsbD_extractLsb']
  by_cases h : k < 8
  · simp [h]
  · have h8 : k - 8 < 8 := by omega
    simp [h, h8, show 8 + (k - 8) = k by omega]

@[simp] theorem Reg.ofNumber_number (r : Reg) : Reg.ofNumber r.number = r := by cases r <;> rfl

@[simp] theorem Reg.number_ofNumber (k : BitVec 3) : (Reg.ofNumber k).number = k := by
  revert k; decide

@[simp] theorem modrmMode_modrm (mode : BitVec 2) (reg rm : BitVec 3) :
    modrmMode (modrm mode reg rm) = mode := by revert mode reg rm; decide

@[simp] theorem modrmReg_modrm (mode : BitVec 2) (reg rm : BitVec 3) :
    modrmReg (modrm mode reg rm) = reg := by revert mode reg rm; decide

@[simp] theorem modrmRm_modrm (mode : BitVec 2) (reg rm : BitVec 3) :
    modrmRm (modrm mode reg rm) = rm := by revert mode reg rm; decide

/-- A ModRM byte is made of its three fields (spec R102). -/
theorem modrm_fields (m : Byte) : modrm (modrmMode m) (modrmReg m) (modrmRm m) = m := by
  revert m; decide

@[simp] theorem movImmediateOpcode_tag (r : BitVec 3) :
    (movImmediateOpcode r).extractLsb' 3 5 = 0b10111#5 := by revert r; decide

@[simp] theorem movImmediateOpcode_register (r : BitVec 3) :
    (movImmediateOpcode r).extractLsb' 0 3 = r := by revert r; decide

/-- A `MOV r16, imm16` opcode is made of its tag and its register field (spec R101). -/
theorem movImmediateOpcode_fields (op : Byte) (h : op.extractLsb' 3 5 = 0b10111#5) :
    movImmediateOpcode (op.extractLsb' 0 3) = op := by revert op; decide

/-- A 16-bit field is fetched low byte first: it answers the word of both bytes, or the error of the
first fetch that raises. -/
theorem fetchField_cases (fetch : Nat → Except RunError Byte) (k : Nat) :
    (∃ lo hi, fetch k = .ok lo ∧ fetch (k + 1) = .ok hi ∧ fetchField fetch k = .ok (joinBytes hi lo)) ∨
    (∃ e, fetch k = .error e ∧ fetchField fetch k = .error e) ∨
    (∃ lo e, fetch k = .ok lo ∧ fetch (k + 1) = .error e ∧ fetchField fetch k = .error e) := by
  unfold fetchField
  rcases h0 : fetch k with e | lo
  · exact .inr (.inl ⟨e, rfl, rfl⟩)
  · rcases h1 : fetch (k + 1) with e | hi
    · exact .inr (.inr ⟨lo, e, rfl, rfl, rfl⟩)
    · exact .inl ⟨lo, hi, rfl, rfl, rfl⟩

/-- A 16-bit field that is answered stands low byte first at its two offsets. -/
theorem fetchField_ok {fetch : Nat → Except RunError Byte} {k : Nat} {v : Word}
    (h : fetchField fetch k = .ok v) : fetch k = .ok (lo8 v) ∧ fetch (k + 1) = .ok (hi8 v) := by
  rcases fetchField_cases fetch k with ⟨lo, hi, h0, h1, h2⟩ | ⟨e, _, h2⟩ | ⟨_, e, _, _, h2⟩
  · rw [h] at h2
    cases h2
    exact ⟨by simpa using h0, by simpa using h1⟩
  · rw [h] at h2; cases h2
  · rw [h] at h2; cases h2

theorem fetchField_of {fetch : Nat → Except RunError Byte} {k : Nat} {v : Word}
    (h0 : fetch k = .ok (lo8 v)) (h1 : fetch (k + 1) = .ok (hi8 v)) : fetchField fetch k = .ok v := by
  unfold fetchField
  rw [h0, h1]
  show Except.ok (joinBytes (hi8 v) (lo8 v)) = _
  rw [joinBytes_hi8_lo8]

/-- The bytes of an instruction are as many as its length. -/
theorem encode_length (i : Instr) : (encode i).length = i.length := by cases i <;> rfl

/-- Fetching the bytes of a well-formed instruction, the decoder answers it and its length. -/
theorem decodeWith_encode {fetch : Nat → Except RunError Byte} (i : Instr) (hi : i.WellFormed)
    (h : ∀ k, (hk : k < (encode i).length) → fetch k = .ok (encode i)[k]) :
    decodeWith fetch = .ok (i, i.length) := by
  have h0 := h 0
  have h1 := h 1
  have h2 := h 2
  have h3 := h 3
  unfold decodeWith
  cases i with
  | movRI d n =>
    simp only [encode, List.length_cons, List.length_nil, List.getElem_cons_zero,
      List.getElem_cons_succ, forall_true_left, Nat.reduceLT, Nat.reduceAdd] at h0 h1 h2
    simp [h0, fetchField_of h1 h2, Bind.bind, Except.bind, pure, Except.pure, Instr.length]
  | addAI n =>
    simp only [encode, List.length_cons, List.length_nil, List.getElem_cons_zero,
      List.getElem_cons_succ, forall_true_left, Nat.reduceLT, Nat.reduceAdd] at h0 h1 h2
    simp [h0, fetchField_of h1 h2, Bind.bind, Except.bind, pure, Except.pure, Instr.length]
  | hlt =>
    simp only [encode, List.length_cons, List.length_nil, List.getElem_cons_zero,
      forall_true_left, Nat.reduceLT, Nat.reduceAdd] at h0
    simp [h0, Bind.bind, Except.bind, pure, Except.pure, Instr.length]
  | movRR d s =>
    simp only [encode, encodeDirect, List.length_cons, List.length_nil, List.getElem_cons_zero,
      List.getElem_cons_succ, forall_true_left, Nat.reduceLT, Nat.reduceAdd] at h0 h1
    simp [h0, h1, decodeModRM, hasModRM, legalModRM, Bind.bind, Except.bind, pure, Except.pure, Instr.length]
  | addRR d s =>
    simp only [encode, encodeDirect, List.length_cons, List.length_nil, List.getElem_cons_zero,
      List.getElem_cons_succ, forall_true_left, Nat.reduceLT, Nat.reduceAdd] at h0 h1
    simp [h0, h1, decodeModRM, hasModRM, legalModRM, Bind.bind, Except.bind, pure, Except.pure, Instr.length]
  | addRI d n =>
    have hd : d.number ≠ 0#3 := by cases d <;> first | decide | exact absurd hi (by simp [Instr.WellFormed, Instr.wellFormed])
    simp only [encode, List.length_cons, List.length_nil, List.getElem_cons_zero,
      List.getElem_cons_succ, forall_true_left, Nat.reduceLT, Nat.reduceAdd] at h0 h1 h2 h3
    simp [h0, h1, fetchField_of h2 h3, decodeModRM, hasModRM, legalModRM, hd, Bind.bind, Except.bind,
      pure, Except.pure, Instr.length]
  | movRM r a | movMR a r | addRM r a | addMR a r =>
    simp only [encode, encodeMemory, List.length_cons, List.length_nil, List.getElem_cons_zero,
      List.getElem_cons_succ, forall_true_left, Nat.reduceLT, Nat.reduceAdd] at h0 h1 h2 h3
    simp [h0, h1, fetchField_of h2 h3, decodeModRM, hasModRM, legalModRM, Bind.bind, Except.bind,
      pure, Except.pure, Instr.length]

/-- A binding that answers has a first part that answers. -/
theorem except_bind_ok {α β ε : Type} {x : Except ε α} {f : α → Except ε β} {b : β}
    (h : (x >>= f) = .ok b) : ∃ a, x = .ok a ∧ f a = .ok b := by
  cases x with
  | error e => cases h
  | ok a => exact ⟨a, rfl, h⟩

/-- A binding that raises raises in its first part or in its second. -/
theorem except_bind_error {α β ε : Type} {x : Except ε α} {f : α → Except ε β} {e : ε}
    (h : (x >>= f) = .error e) : x = .error e ∨ ∃ a, x = .ok a ∧ f a = .error e := by
  cases x with
  | error e' => cases h; exact .inl rfl
  | ok a => exact .inr ⟨a, rfl, h⟩

/-- What the part after a ModRM opcode answers. -/
theorem decodeModRM_ok {fetch : Nat → Except RunError Byte} {op : Byte} {i : Instr} {n : Nat}
    (hop : hasModRM op = true) (h0 : fetch 0 = .ok op) (h : decodeModRM fetch op = .ok (i, n)) :
    i.WellFormed ∧ n = i.length ∧ ∀ k, (hk : k < (encode i).length) → fetch k = .ok (encode i)[k] := by
  unfold decodeModRM at h
  obtain ⟨m, h1, hrest⟩ := except_bind_ok h
  clear h
  rename' hrest => h
  have hm := modrm_fields m
  simp only [hasModRM, Bool.or_eq_true, beq_iff_eq] at hop
  by_cases hl : legalModRM op m = false
  · rw [if_pos hl] at h; cases h
  rw [if_neg hl] at h
  rw [Bool.not_eq_false] at hl
  split at h
  · subst op
    obtain ⟨v, hv, hend⟩ := except_bind_ok h
    cases hend
    obtain ⟨h2, h3⟩ := fetchField_ok hv
    simp [legalModRM] at hl
    obtain ⟨⟨hmode, hreg⟩, hrm⟩ := hl
    refine ⟨?_, rfl, fun k hk => ?_⟩
    · simp only [Instr.WellFormed, Instr.wellFormed, bne_iff_ne, ne_eq]
      intro hax
      apply hrm
      rw [← Reg.number_ofNumber (modrmRm m), hax]
      rfl
    · simp only [encode, List.length_cons, List.length_nil] at hk
      interval_cases k
      · exact h0
      · simpa [encode, ← hmode, ← hreg, hm] using h1
      · exact h2
      · exact h3
  · rename_i h81
    split at h
    · rename_i hmode
      have hop' : op = 0x8B#8 ∨ op = 0x03#8 := by
        simp only [legalModRM, hmode] at hl
        rcases hop with (((rfl | rfl) | rfl) | rfl) | rfl <;> simp_all
      rcases hop' with rfl | rfl
      all_goals
        cases h
        refine ⟨rfl, rfl, fun k hk => ?_⟩
        simp only [encode, encodeDirect, List.length_cons, List.length_nil, if_true,
          show ¬(0x03#8 = 0x8B#8) by decide, if_false] at hk ⊢
        interval_cases k
        · exact h0
        · simpa [← hmode, hm] using h1
    · rename_i hmode
      obtain ⟨v, hv, hend⟩ := except_bind_ok h
      obtain ⟨h2, h3⟩ := fetchField_ok hv
      have hdir : modrmMode m = 0b00#2 ∧ modrmRm m = 0b110#3 := by
        simp only [legalModRM] at hl
        rcases hop with (((rfl | rfl) | rfl) | rfl) | rfl <;> simp_all
      have hbyte : modrm 0b00#2 (modrmReg m) 0b110#3 = m := by
        rw [← hdir.1, ← hdir.2]; exact hm
      have hop' : op = 0x8B#8 ∨ op = 0x03#8 ∨ op = 0x89#8 ∨ op = 0x01#8 := by tauto
      rcases hop' with rfl | rfl | rfl | rfl
      all_goals
        cases hend
        refine ⟨rfl, rfl, fun k hk => ?_⟩
        simp only [encode, encodeMemory, List.length_cons, List.length_nil, Reg.number_ofNumber,
          hbyte] at hk ⊢
        interval_cases k
        · exact h0
        · exact h1
        · exact h2
        · exact h3

/-- What the decoder answers is a well-formed instruction with its length, and every byte of its
encoding was fetched. -/
theorem decodeWith_ok {fetch : Nat → Except RunError Byte} {i : Instr} {n : Nat}
    (h : decodeWith fetch = .ok (i, n)) :
    i.WellFormed ∧ n = i.length ∧ ∀ k, (hk : k < (encode i).length) → fetch k = .ok (encode i)[k] := by
  unfold decodeWith at h
  obtain ⟨op, h0, h⟩ := except_bind_ok h
  split at h
  · rename_i htag
    obtain ⟨v, hv, h⟩ := except_bind_ok h
    cases h
    obtain ⟨h1, h2⟩ := fetchField_ok hv
    refine ⟨rfl, rfl, fun k hk => ?_⟩
    simp only [encode, List.length_cons, List.length_nil] at hk
    interval_cases k
    · simpa [encode, movImmediateOpcode_fields op htag] using h0
    · exact h1
    · exact h2
  · split at h
    · obtain ⟨v, hv, h⟩ := except_bind_ok h
      cases h
      obtain ⟨h1, h2⟩ := fetchField_ok hv
      subst op
      refine ⟨rfl, rfl, fun k hk => ?_⟩
      simp only [encode, List.length_cons, List.length_nil] at hk
      interval_cases k
      · exact h0
      · exact h1
      · exact h2
    · split at h
      · cases h
        subst op
        refine ⟨rfl, rfl, fun k hk => ?_⟩
        simp only [encode, List.length_cons, List.length_nil] at hk
        interval_cases k
        exact h0
      · split at h
        · exact decodeModRM_ok ‹_› h0 h
        · cases h

theorem fetchField_error {fetch : Nat → Except RunError Byte} {k : Nat} {e : RunError}
    (h : fetchField fetch k = .error e) : fetch k = .error e ∨ fetch (k + 1) = .error e := by
  rcases fetchField_cases fetch k with ⟨_, _, _, _, h2⟩ | ⟨e', h0, h2⟩ | ⟨_, e', _, h1, h2⟩
  · rw [h] at h2; cases h2
  · rw [h] at h2; cases h2; exact .inl h0
  · rw [h] at h2; cases h2; exact .inr h1

/-- What the decoder raises is the error of a fetch, or `UnknownOpcode` for the opcode byte or for the
ModRM byte. -/
theorem decodeWith_error {fetch : Nat → Except RunError Byte} {e : RunError}
    (h : decodeWith fetch = .error e) :
    (∃ k, fetch k = .error e) ∨
    (∃ op, fetch 0 = .ok op ∧ legalOpcode op = false ∧ e = .unknownOpcode op none) ∨
    (∃ op m, fetch 0 = .ok op ∧ fetch 1 = .ok m ∧ hasModRM op = true ∧ legalModRM op m = false ∧
      e = .unknownOpcode op (some m)) := by
  have field {k : Nat} (hf : fetchField fetch k = .error e) : ∃ k, fetch k = .error e :=
    (fetchField_error hf).elim (⟨k, ·⟩) (⟨k + 1, ·⟩)
  unfold decodeWith at h
  rcases except_bind_error h with h0 | ⟨op, h0, h⟩
  · exact .inl ⟨0, h0⟩
  split at h
  · rcases except_bind_error h with hf | ⟨_, _, h⟩
    · exact .inl (field hf)
    · cases h
  split at h
  · rcases except_bind_error h with hf | ⟨_, _, h⟩
    · exact .inl (field hf)
    · cases h
  split at h
  · cases h
  split at h
  · rename_i hop
    unfold decodeModRM at h
    rcases except_bind_error h with h1 | ⟨m, h1, h⟩
    · exact .inl ⟨1, h1⟩
    by_cases hl : legalModRM op m = false
    · rw [if_pos hl] at h
      cases h
      exact .inr (.inr ⟨op, m, h0, h1, hop, hl, rfl⟩)
    rw [if_neg hl] at h
    split at h
    · rcases except_bind_error h with hf | ⟨_, _, h⟩
      · exact .inl (field hf)
      · cases h
    split at h
    · cases h
    · rcases except_bind_error h with hf | ⟨_, _, h⟩
      · exact .inl (field hf)
      · split at h
        · cases h
        split at h
        · cases h
        split at h <;> cases h
  · rename_i h1 h2 h3 h4
    cases h
    refine .inr (.inl ⟨op, h0, ?_, rfl⟩)
    simp [legalOpcode, h1, h2, h3, h4]

end Sys2Proof
end

