-- ==== Sys2Proof/Laws/State.lean ====
section
/-! SUPPORT. One lemma per field per update of the state, and the laws of the register file. -/

/-- The size of memory as a numeral, for arithmetic. -/
@[simp] theorem Sys2Proof.Config.memorySize_eq : Sys2Proof.Config.memorySize = 65536 := rfl

namespace Sys2Proof.Machine

@[simp] theorem RegFile.get_set_same (f : RegFile) (r : Reg) (v : Word) : (f.set r v).get r = v := by
  cases r <;> rfl

@[simp] theorem RegFile.get_set_other (f : RegFile) {r d : Reg} (v : Word) (h : r ≠ d) :
    (f.set d v).get r = f.get r := by
  cases d <;> cases r <;> first | rfl | exact absurd rfl h

@[simp] theorem State.setReg_ip (s : State) (r : Reg) (v : Word) : (s.setReg r v).ip = s.ip := rfl
@[simp] theorem State.setReg_run (s : State) (r : Reg) (v : Word) : (s.setReg r v).run = s.run := rfl
@[simp] theorem State.setReg_mem (s : State) (r : Reg) (v : Word) : (s.setReg r v).mem = s.mem := rfl
@[simp] theorem State.setReg_len (s : State) (r : Reg) (v : Word) : (s.setReg r v).len = s.len := rfl

@[simp] theorem State.reg_setReg_same (s : State) (r : Reg) (v : Word) : (s.setReg r v).reg r = v :=
  RegFile.get_set_same s.regs r v

@[simp] theorem State.reg_setReg_other (s : State) {r d : Reg} (v : Word) (h : r ≠ d) :
    (s.setReg d v).reg r = s.reg r :=
  RegFile.get_set_other s.regs v h

@[simp] theorem State.advance_regs (s : State) (n : Nat) : (s.advance n).regs = s.regs := rfl
@[simp] theorem State.advance_reg (s : State) (n : Nat) (r : Reg) : (s.advance n).reg r = s.reg r := rfl
@[simp] theorem State.advance_ip (s : State) (n : Nat) : (s.advance n).ip = s.ip + BitVec.ofNat 16 n := rfl
@[simp] theorem State.advance_run (s : State) (n : Nat) : (s.advance n).run = s.run := rfl
@[simp] theorem State.advance_mem (s : State) (n : Nat) : (s.advance n).mem = s.mem := rfl
@[simp] theorem State.advance_len (s : State) (n : Nat) : (s.advance n).len = s.len := rfl

@[simp] theorem State.raise_regs (s : State) (e : RunError) : (s.raise e).regs = s.regs := rfl
@[simp] theorem State.raise_reg (s : State) (e : RunError) (r : Reg) : (s.raise e).reg r = s.reg r := rfl
@[simp] theorem State.raise_ip (s : State) (e : RunError) : (s.raise e).ip = s.ip := rfl
@[simp] theorem State.raise_run (s : State) (e : RunError) : (s.raise e).run = .faulted e s.ip := rfl
@[simp] theorem State.raise_mem (s : State) (e : RunError) : (s.raise e).mem = s.mem := rfl
@[simp] theorem State.raise_len (s : State) (e : RunError) : (s.raise e).len = s.len := rfl

@[simp] theorem State.halt_regs (s : State) : s.halt.regs = s.regs := rfl
@[simp] theorem State.halt_reg (s : State) (r : Reg) : s.halt.reg r = s.reg r := rfl
@[simp] theorem State.halt_ip (s : State) : s.halt.ip = s.ip := rfl
@[simp] theorem State.halt_run (s : State) : s.halt.run = .halted := rfl
@[simp] theorem State.halt_mem (s : State) : s.halt.mem = s.mem := rfl
@[simp] theorem State.halt_len (s : State) : s.halt.len = s.len := rfl

/-- The loaded length is at most the size of memory. -/
theorem State.len_le (s : State) : s.len.val ≤ 65536 := Nat.le_of_lt_succ s.len.isLt

end Sys2Proof.Machine
end

