-- ==== Sys2Proof/Laws/Memory.lean ====
section
/-! SUPPORT. The laws of memory: what a write changes and leaves, and that every memory operation keeps
the canonical form. -/

namespace Sys2Proof.Machine

theorem Memory.read_insert (m : Memory) (a : Nat) (b : Byte) (c : Nat) :
    (m.insert a b).read c = if c = a then b else m.read c := by
  induction m with
  | nil => simp [Memory.insert, Memory.read, eq_comm]
  | cons x rest ih =>
    obtain ⟨k, v⟩ := x
    simp only [Memory.insert]
    split
    · simp [Memory.read, eq_comm]
    · split
      · subst a
        simp only [Memory.read]
        rcases eq_or_ne k c with rfl | h
        · simp
        · simp [h, h.symm]
      · simp only [Memory.read, ih]
        by_cases h : k = c <;> by_cases h' : c = a <;> simp_all

theorem Memory.read_erase (m : Memory) (a c : Nat) :
    (m.erase a).read c = if c = a then unlistedByte else m.read c := by
  induction m with
  | nil => simp [Memory.erase, Memory.read]
  | cons x rest ih =>
    obtain ⟨k, v⟩ := x
    simp only [Memory.erase]
    split
    · subst a
      simp only [Memory.read, ih]
      by_cases h : k = c <;> simp [h]
    · simp only [Memory.read, ih]
      by_cases h : k = c <;> by_cases h' : c = a <;> simp_all

/-- A write sets the byte at its address and leaves every other byte. -/
@[simp] theorem Memory.read_write (m : Memory) (a : Nat) (b : Byte) (c : Nat) :
    (m.write a b).read c = if c = a then b else m.read c := by
  unfold Memory.write
  split
  · subst b; exact Memory.read_erase m a c
  · exact Memory.read_insert m a b c

/-- The bytes of memory after a word is written. -/
theorem Memory.read_writeWord (m : Memory) (a v : Word) (c : Nat) :
    (m.writeWord a v).read c =
      if c = a.toNat + 1 then hi8 v else if c = a.toNat then lo8 v else m.read c := by
  simp [Memory.writeWord]

/-- The bytes of memory after a list of bytes is stored. -/
theorem Memory.read_store (bytes : List Byte) (m : Memory) (a c : Nat) :
    (Memory.store m a bytes).read c =
      if h : a ≤ c ∧ c - a < bytes.length then bytes[c - a]'h.2 else m.read c := by
  induction bytes generalizing m a with
  | nil => simp [Memory.store]
  | cons b rest ih =>
    simp only [Memory.store, ih, Memory.read_write, List.length_cons]
    by_cases h1 : c = a
    · subst c; simp
    · by_cases h2 : a ≤ c
      · have h3 : c - a = (c - (a + 1)) + 1 := by omega
        by_cases h4 : c - (a + 1) < rest.length
        · rw [dif_pos ⟨by omega, h4⟩, dif_pos ⟨h2, by omega⟩]
          simp [h3]
        · rw [dif_neg (by omega), dif_neg (by omega), if_neg h1]
      · rw [dif_neg (by omega), dif_neg (by omega), if_neg h1]

theorem Memory.wfFrom_mono {lo lo' : Nat} (h : lo ≤ lo') {m : Memory}
    (hm : Memory.wfFrom lo' m = true) : Memory.wfFrom lo m = true := by
  cases m with
  | nil => rfl
  | cons x rest =>
    obtain ⟨k, v⟩ := x
    simp only [Memory.wfFrom, Bool.and_eq_true, decide_eq_true_eq] at hm ⊢
    exact ⟨⟨⟨by omega, hm.1.1.2⟩, hm.1.2⟩, hm.2⟩

theorem Memory.wfFrom_erase {m : Memory} (lo a : Nat) (hm : Memory.wfFrom lo m = true) :
    Memory.wfFrom lo (m.erase a) = true := by
  induction m generalizing lo with
  | nil => rfl
  | cons x rest ih =>
    obtain ⟨k, v⟩ := x
    simp only [Memory.wfFrom, Bool.and_eq_true, decide_eq_true_eq] at hm
    simp only [Memory.erase]
    split
    · exact Memory.wfFrom_mono (by omega) (ih (k + 1) hm.2)
    · simp only [Memory.wfFrom, Bool.and_eq_true, decide_eq_true_eq]
      exact ⟨hm.1, ih (k + 1) hm.2⟩

theorem Memory.wfFrom_insert {m : Memory} (lo a : Nat) (b : Byte) (hlo : lo ≤ a) (ha : a < 65536)
    (hb : b ≠ unlistedByte) (hm : Memory.wfFrom lo m = true) :
    Memory.wfFrom lo (m.insert a b) = true := by
  have hb' : (b != 0x00#8) = true := by simpa [unlistedByte] using hb
  induction m generalizing lo with
  | nil => simp [Memory.insert, Memory.wfFrom, hlo, ha, hb']
  | cons x rest ih =>
    obtain ⟨k, v⟩ := x
    simp only [Memory.wfFrom, Bool.and_eq_true, decide_eq_true_eq] at hm
    obtain ⟨⟨⟨h1, h2⟩, h3⟩, h4⟩ := hm
    simp only [Memory.insert]
    split
    · simp only [Memory.wfFrom, Bool.and_eq_true, decide_eq_true_eq]
      exact ⟨⟨⟨hlo, ha⟩, hb'⟩, ⟨⟨by omega, h2⟩, h3⟩, h4⟩
    · split
      · subst a
        simp only [Memory.wfFrom, Bool.and_eq_true, decide_eq_true_eq]
        exact ⟨⟨⟨hlo, ha⟩, hb'⟩, h4⟩
      · simp only [Memory.wfFrom, Bool.and_eq_true, decide_eq_true_eq]
        exact ⟨⟨⟨h1, h2⟩, h3⟩, ih (k + 1) (by omega) h4⟩

/-- A write inside memory keeps the canonical form. -/
theorem Memory.wf_write {m : Memory} (a : Nat) (b : Byte) (ha : a < 65536) (hm : m.wf = true) :
    (m.write a b).wf = true := by
  unfold Memory.write
  split
  · exact Memory.wfFrom_erase 0 a hm
  · exact Memory.wfFrom_insert 0 a b (by omega) ha ‹_› hm

/-- A word written inside memory keeps the canonical form. -/
theorem Memory.wf_writeWord {m : Memory} (a v : Word) (ha : a ≠ 0xFFFF#16) (hm : m.wf = true) :
    (m.writeWord a v).wf = true := by
  have h : a.toNat ≠ 65535 := fun h => ha (BitVec.eq_of_toNat_eq h)
  have := a.isLt
  exact Memory.wf_write _ _ (by omega) (Memory.wf_write _ _ (by omega) hm)

/-- A list of bytes stored inside memory keeps the canonical form. -/
theorem Memory.wf_store (bytes : List Byte) {m : Memory} (a : Nat) (ha : a + bytes.length ≤ 65536)
    (hm : m.wf = true) : (Memory.store m a bytes).wf = true := by
  induction bytes generalizing m a with
  | nil => exact hm
  | cons b rest ih =>
    simp only [List.length_cons] at ha
    exact ih (a + 1) (by omega) (Memory.wf_write a b (by omega) hm)

/-- Memory at reset is in canonical form. -/
theorem Memory.wf_reset : State.reset.mem.wf = true := rfl

end Sys2Proof.Machine
end

