-- ==== Sys2Proof/Laws/Ops.lean ====
section
/-! SUPPORT. For each shared operation, one lemma that says all it can do. -/

namespace Sys2Proof.Machine

/-- The exact sum of two words is `add16` narrowed. -/
theorem add16_eq_add (p q : Word) : add16 p q = p + q := by
  apply BitVec.eq_of_toNat_eq
  simp [add16]

/-- A fetch answers the byte in memory below the loaded length and raises `EndOfStream` elsewhere. -/
theorem State.fetchByte_cases (s : State) (a : Nat) :
    (a < s.len.val ∧ s.fetchByte a = .ok (s.mem.read a)) ∨
    (s.len.val ≤ a ∧ s.fetchByte a = .error (.endOfStream a)) := by
  unfold State.fetchByte
  split
  · exact .inl ⟨by omega, rfl⟩
  · exact .inr ⟨by omega, rfl⟩

/-- A load answers the word at its address, or raises at 0xFFFF. -/
theorem State.loadWord_cases (s : State) (a : Word) :
    (a ≠ 0xFFFF#16 ∧ s.loadWord a = .ok (s.mem.readWord a)) ∨
    (a = 0xFFFF#16 ∧ s.loadWord a = .error (.addressOutOfRange a)) := by
  unfold State.loadWord checkAddress
  by_cases h : a = 0xFFFF#16
  · exact .inr ⟨h, by simp only [if_pos h]; rfl⟩
  · exact .inl ⟨h, by simp only [if_neg h]; rfl⟩

/-- A store answers the state with the word written and nothing else changed, or raises at 0xFFFF. -/
theorem State.storeWord_cases (s : State) (a v : Word) :
    (a ≠ 0xFFFF#16 ∧ s.storeWord a v = .ok { s with mem := s.mem.writeWord a v }) ∨
    (a = 0xFFFF#16 ∧ s.storeWord a v = .error (.addressOutOfRange a)) := by
  unfold State.storeWord checkAddress
  by_cases h : a = 0xFFFF#16
  · exact .inr ⟨h, by simp only [if_pos h]; rfl⟩
  · exact .inl ⟨h, by simp only [if_neg h]; rfl⟩

@[simp] theorem State.loadWord_ok (s : State) {a : Word} (h : a ≠ 0xFFFF#16) :
    s.loadWord a = .ok (s.mem.readWord a) := by
  rcases s.loadWord_cases a with ⟨_, h'⟩ | ⟨h', _⟩
  · exact h'
  · exact absurd h' h

@[simp] theorem State.loadWord_top (s : State) :
    s.loadWord 0xFFFF#16 = .error (.addressOutOfRange 0xFFFF#16) := rfl

@[simp] theorem State.storeWord_ok (s : State) {a : Word} (v : Word) (h : a ≠ 0xFFFF#16) :
    s.storeWord a v = .ok { s with mem := s.mem.writeWord a v } := by
  rcases s.storeWord_cases a v with ⟨_, h'⟩ | ⟨h', _⟩
  · exact h'
  · exact absurd h' h

@[simp] theorem State.storeWord_top (s : State) (v : Word) :
    s.storeWord 0xFFFF#16 v = .error (.addressOutOfRange 0xFFFF#16) := rfl

@[simp] theorem finish_ok (s t : State) : finish s (.ok t) = .next t := rfl
@[simp] theorem finish_error (s : State) (e : RunError) : finish s (.error e) = .next (s.raise e) := rfl

/-- A step that answers a next state was taken from a running state, and either the decoding raised an
error or the decoded instruction was executed. -/
theorem step_cases {s t : State} (h : step s = .next t) :
    s.run = .running ∧
      ((∃ e, s.decodeAt = .error e ∧ t = s.raise e) ∨
       (∃ i n, s.decodeAt = .ok (i, n) ∧ afterExec s i n (exec i s) = .next t)) := by
  unfold step at h
  split at h
  · cases h
  · cases h
  · rename_i hr
    refine ⟨hr, ?_⟩
    split at h
    · rename_i e he
      cases h
      exact .inl ⟨e, he, rfl⟩
    · rename_i i n hi
      exact .inr ⟨i, n, hi, h⟩

/-- `afterExec` answers the state of the instruction, or that state with `EndOfStream` raised where a
completed instruction other than HLT ends at 0xFFFF. -/
theorem afterExec_cases {s t u : State} {i : Instr} {n : Nat} (h : afterExec s i n (.next u) = .next t) :
    (i ≠ .hlt ∧ s.ip.toNat + n = 65536 ∧ u.run = .running ∧ t = u.raise (.endOfStream 65536)) ∨
    (¬(i ≠ .hlt ∧ s.ip.toNat + n = 65536 ∧ u.run = .running) ∧ t = u) := by
  simp only [afterExec] at h
  split at h
  · rename_i hc
    cases h
    exact .inl ⟨hc.1, hc.2.1, hc.2.2, rfl⟩
  · rename_i hc
    cases h
    exact .inr ⟨hc, rfl⟩

/-- Placing a word where the next step fetches keeps the canonical form of memory. -/
theorem State.withFetchWord_wf {s : State} (nbits w : Nat) (h : s.mem.wf = true) :
    (s.withFetchWord nbits w).mem.wf = true := by
  unfold State.withFetchWord
  apply Memory.wf_store _ _ _ h
  have hip := s.ip.isLt
  have hfit := List.length_take_le (Config.memorySize -
    if s.ip.toNat + (nbits + 7) / 8 ≤ Config.memorySize then s.ip.toNat else 0) (tableBytes nbits w)
  simp only [Config.memorySize_eq] at hfit ⊢
  split
  · simp_all; omega
  · simp_all

end Sys2Proof.Machine
end

