-- ==== Sys2Proof/Laws/Exec.lean ====
section
/-! SUPPORT. What the execution of any instruction can do. -/

namespace Sys2Proof.Machine

/-- What an instruction that completes leaves: `ip` past it, the run state as it was (`Halted` after
HLT), every register but its destination and every byte but those it stores to as they were. -/
structure Completed (i : Instr) (s t : State) : Prop where
  ip : t.ip = s.ip + BitVec.ofNat 16 i.length
  run : t.run = if i = .hlt then .halted else s.run
  reg : ∀ r, i.destination ≠ some r → t.reg r = s.reg r
  read : ∀ b, (∀ a, i.storesTo = some a → b ≠ a.toNat ∧ b ≠ a.toNat + 1) → t.mem.read b = s.mem.read b
  target : ∀ a, i.storesTo = some a → a ≠ 0xFFFF#16
  wf : s.mem.wf = true → t.mem.wf = true
  len : t.len = s.len

theorem completed_setReg {i : Instr} {s : State} {d : Reg} (v : Word) (hd : i.destination = some d)
    (hm : i.storesTo = none) (hh : i ≠ .hlt) :
    Completed i s ((s.setReg d v).advance i.length) where
  ip := rfl
  run := by simp [hh]
  reg r hr := by
    have hne : r ≠ d := by rintro rfl; exact hr hd
    simp [hne]
  read _ _ := rfl
  target a ha := by simp [hm] at ha
  wf h := h
  len := rfl

theorem completed_storeWord {i : Instr} {s : State} {a : Word} (v : Word)
    (hm : i.storesTo = some a) (ha : a ≠ 0xFFFF#16) (hh : i ≠ .hlt) :
    Completed i s (({ s with mem := s.mem.writeWord a v } : State).advance i.length) where
  ip := rfl
  run := by simp [hh]
  reg r _ := rfl
  read b hb := by
    obtain ⟨h0, h1⟩ := hb a hm
    simp [Memory.read_writeWord, h0, h1]
  target a' ha' := by rw [hm] at ha'; cases ha'; exact ha
  wf h := Memory.wf_writeWord a v ha h
  len := rfl

/-- Every instruction answers a next state: it completes, or it is a memory form at 0xFFFF and raises. -/
theorem exec_cases (i : Instr) (s : State) :
    (i.dataAddress = some 0xFFFF#16 ∧
      exec i s = .next (s.raise (.addressOutOfRange 0xFFFF#16))) ∨
    ∃ t, exec i s = .next t ∧ Completed i s t := by
  cases i with
  | movRI d n => exact .inr ⟨_, rfl, completed_setReg n rfl rfl (by simp)⟩
  | movRR d r => exact .inr ⟨_, rfl, completed_setReg (s.reg r) rfl rfl (by simp)⟩
  | addRR d r => exact .inr ⟨_, rfl, completed_setReg (add16 (s.reg d) (s.reg r)) rfl rfl (by simp)⟩
  | addAI n => exact .inr ⟨_, rfl, completed_setReg (add16 (s.reg .ax) n) rfl rfl (by simp)⟩
  | addRI d n => exact .inr ⟨_, rfl, completed_setReg (add16 (s.reg d) n) rfl rfl (by simp)⟩
  | hlt =>
    exact .inr ⟨_, rfl, ⟨rfl, rfl, fun _ _ => rfl, fun _ _ => rfl, fun _ h => (nomatch h), id, rfl⟩⟩
  | movRM d a =>
    by_cases ha : a = 0xFFFF#16
    · subst a; exact .inl ⟨rfl, rfl⟩
    · refine .inr ⟨(s.setReg d (s.mem.readWord a)).advance 4, ?_, completed_setReg _ rfl rfl (by simp)⟩
      simp [exec, execMovRM, ha, Bind.bind, Except.bind, pure, Except.pure]
  | addRM d a =>
    by_cases ha : a = 0xFFFF#16
    · subst a; exact .inl ⟨rfl, rfl⟩
    · refine .inr ⟨(s.setReg d (add16 (s.reg d) (s.mem.readWord a))).advance 4, ?_,
        completed_setReg _ rfl rfl (by simp)⟩
      simp [exec, execAddRM, ha, Bind.bind, Except.bind, pure, Except.pure]
  | movMR a r =>
    by_cases ha : a = 0xFFFF#16
    · subst a; exact .inl ⟨rfl, rfl⟩
    · refine .inr ⟨_, ?_, completed_storeWord (s.reg r) rfl ha (by simp)⟩
      simp [exec, execMovMR, ha, Bind.bind, Except.bind, pure, Except.pure, Instr.length]
  | addMR a r =>
    by_cases ha : a = 0xFFFF#16
    · subst a; exact .inl ⟨rfl, rfl⟩
    · refine .inr ⟨_, ?_, completed_storeWord (add16 (s.mem.readWord a) (s.reg r)) rfl ha (by simp)⟩
      simp [exec, execAddMR, ha, Bind.bind, Except.bind, pure, Except.pure, Instr.length]

end Sys2Proof.Machine
end

