-- ==== Sys2Proof/Tests/Slice0.lean ====
section
/-! SUPPORT. Tests: words written out from the encodings of the spec, vectors of `95_test_vectors.md`,
one step each, and for each statement with hypotheses a witness that meets them together. -/

namespace Sys2Proof.Tests

open Sys2Proof Sys2Proof.Machine

/-! ## Helpers -/

/-- A machine that holds a program, as a load leaves it. -/
def start (program : List Byte) : State :=
  { State.reset with mem := Memory.store [] 0 program, len := Fin.ofNat 65537 program.length }

/-- A machine about to run an instruction that ends at 0xFFFF, with `L = 65536`. -/
def atTop (instruction : List Byte) : State :=
  { State.reset with
    ip := BitVec.ofNat 16 (65536 - instruction.length)
    mem := Memory.store [] (65536 - instruction.length) instruction
    len := 65536 }

/-- The state after one step. -/
def after (s : State) : Option State :=
  match step s with
  | .next t => some t
  | .fault _ => none
  | .refused _ => none

/-! ## Well-formedness -/

theorem test_wellFormed_refuses_long_add_to_ax : ¬(Instr.addRI .ax 1#16).WellFormed := by decide
theorem test_wellFormed_accepts_long_add_to_di : (Instr.addRI .di 1#16).WellFormed := by decide

/-! ## Decoding: a word of each form, bit by bit as spec R101 and R110 write it -/

/-- `BC FE FF`: 10111 100, spec program P6. -/
theorem test_decode_movRI :
    decodeBytes [0b10111100#8, 0xFE#8, 0xFF#8] 0 = .ok (.movRI .sp 0xFFFE#16, 3) := by rfl
/-- `8B F4`: 11 110 100, spec program P6. -/
theorem test_decode_movRR : decodeBytes [0x8B#8, 0b11110100#8] 0 = .ok (.movRR .si .sp, 2) := by rfl
/-- `8B 36 02 01`: 00 110 110, `MOV SI, [258]`. -/
theorem test_decode_movRM :
    decodeBytes [0x8B#8, 0b00110110#8, 0x02#8, 0x01#8] 0 = .ok (.movRM .si 258#16, 4) := by rfl
/-- `89 06 04 00`: 00 000 110, Scenario B. -/
theorem test_decode_movMR :
    decodeBytes [0x89#8, 0b00000110#8, 0x04#8, 0x00#8] 0 = .ok (.movMR 4#16 .ax, 4) := by rfl
/-- `03 C3`: 11 000 011, Scenario A. -/
theorem test_decode_addRR : decodeBytes [0x03#8, 0b11000011#8] 0 = .ok (.addRR .ax .bx, 2) := by rfl
/-- `03 2E 00 00`: 00 101 110, `ADD BP, [0]`. -/
theorem test_decode_addRM :
    decodeBytes [0x03#8, 0b00101110#8, 0x00#8, 0x00#8] 0 = .ok (.addRM .bp 0#16, 4) := by rfl
/-- `01 3E FE FF`: 00 111 110, `ADD [65534], DI`. -/
theorem test_decode_addMR :
    decodeBytes [0x01#8, 0b00111110#8, 0xFE#8, 0xFF#8] 0 = .ok (.addMR 0xFFFE#16 .di, 4) := by rfl
/-- `05 64 00`, Scenario C. -/
theorem test_decode_addAI :
    decodeBytes [0b00000101#8, 0x64#8, 0x00#8] 0 = .ok (.addAI 100#16, 3) := by rfl
/-- `81 C3 64 00`: 11 000 011, Scenario C. -/
theorem test_decode_addRI :
    decodeBytes [0x81#8, 0b11000011#8, 0x64#8, 0x00#8] 0 = .ok (.addRI .bx 100#16, 4) := by rfl
/-- `F4`. -/
theorem test_decode_hlt : decodeBytes [0b11110100#8] 0 = .ok (.hlt, 1) := by rfl

/-- The word of a table row has byte 0 in its most significant byte (log entry 4). -/
theorem test_table_word : decodeTableWord 32 0x81C36400 = some (.addRI .bx 100#16) := by decide
theorem test_table_word_refused : decodeTableWord 16 0x89C3 = none := by decide

/-- `8B 05`: the illegal ModRM byte is reported, not the missing bytes (spec R313). -/
theorem test_modrm_checked_first :
    decodeBytes [0x8B#8, 0x05#8] 0 = .error (.unknownOpcode 0x8B#8 (some 0x05#8)) := by rfl
/-- `8B 06` reports `EndOfStream` at offset 2 (spec R313). -/
theorem test_truncated : decodeBytes [0x8B#8, 0x06#8] 0 = .error (.endOfStream 2) := by rfl

/-! ## One step of each instruction, from the vectors of the spec -/

/-- `MOV AX, 5` from reset. -/
theorem test_movRI : (after (start [0xB8#8, 0x05#8, 0x00#8])).map (fun t => (t.reg .ax, t.ip)) =
    some (5#16, 3#16) := by decide
/-- `MOV BX, AX` with AX = 5. -/
theorem test_movRR :
    (after ((start [0x8B#8, 0xD8#8]).setReg .ax 5#16)).map (fun t => (t.reg .bx, t.reg .ax)) =
    some (5#16, 5#16) := by decide
/-- `MOV DI, [0]` reads its own first bytes. -/
theorem test_movRM : (after (start [0x8B#8, 0x3E#8, 0x00#8, 0x00#8, 0xF4#8])).map (fun t => t.reg .di) =
    some 0x3E8B#16 := by decide
/-- `MOV [4], AX` with AX = 7. -/
theorem test_movMR : (after ((start [0x89#8, 0x06#8, 0x04#8, 0x00#8]).setReg .ax 7#16)).map
    (fun t => (t.mem.read 4, t.mem.read 5)) = some (7#8, 0#8) := by decide
/-- `ADD AX, AX` with AX = 0x4001. -/
theorem test_addRR : (after ((start [0x03#8, 0xC0#8]).setReg .ax 0x4001#16)).map (fun t => t.reg .ax) =
    some 0x8002#16 := by decide
/-- `ADD DX, [200]` with DX = 1 and `FF FF` at 200. -/
theorem test_addRM :
    (after (let s := (start [0x03#8, 0x16#8, 0xC8#8, 0x00#8]).setReg .dx 1#16
            { s with mem := s.mem.writeWord 200#16 0xFFFF#16 })).map (fun t => t.reg .dx) =
    some 0#16 := by decide
/-- `ADD [100], CX` with CX = 1 and `FF FF` at 100. -/
theorem test_addMR :
    (after (let s := (start [0x01#8, 0x0E#8, 0x64#8, 0x00#8]).setReg .cx 1#16
            { s with mem := s.mem.writeWord 100#16 0xFFFF#16 })).map (fun t => t.mem) =
    some [(0, 0x01#8), (1, 0x0E#8), (2, 0x64#8)] := by decide
/-- `ADD AX, 65535` with AX = 5. -/
theorem test_addAI : (after ((start [0x05#8, 0xFF#8, 0xFF#8]).setReg .ax 5#16)).map (fun t => t.reg .ax) =
    some 4#16 := by decide
/-- `ADD SP, 2` with SP = 0xFFFE. -/
theorem test_addRI :
    (after ((start [0x81#8, 0xC4#8, 0x02#8, 0x00#8]).setReg .sp 0xFFFE#16)).map (fun t => t.reg .sp) =
    some 0#16 := by decide
/-- `HLT` from reset. -/
theorem test_hlt : (after (start [0xF4#8])).map (fun t => (t.run, t.ip)) =
    some (.halted, 1#16) := by decide
/-- `HLT` at 0xFFFF. -/
theorem test_hlt_at_top : (after (atTop [0xF4#8])).map (fun t => (t.run, t.ip)) =
    some (.halted, 0#16) := by decide
/-- `ADD BX, 1` that ends at 0xFFFF: its write stands and the run ends (D21). -/
theorem test_end_of_memory :
    (after (atTop [0x81#8, 0xC3#8, 0x01#8, 0x00#8])).map (fun t => (t.run, t.ip, t.reg .bx)) =
    some (.faulted (.endOfStream 65536) 0#16, 0#16, 1#16) := by decide
/-- `00 00`: 0x00 is an illegal opcode. -/
theorem test_zero_is_illegal : (after (start [0x00#8, 0x00#8])).map (fun t => t.run) =
    some (.faulted (.unknownOpcode 0x00#8 none) 0#16) := by decide
/-- The empty stream. -/
theorem test_empty_stream : (after (start [])).map (fun t => t.run) =
    some (.faulted (.endOfStream 0) 0#16) := by decide
/-- A word placed by `withFetchWord` is what the next step runs. -/
theorem test_withFetchWord :
    (after (State.reset.withFetchWord 24 0xBFFFFF)).map (fun t => (t.reg .di, t.ip)) =
    some (0xFFFF#16, 3#16) := by decide

/-! ## The front end, the encoder and load, from the vectors of the spec -/

theorem test_typer_top_address : typeOperand "[65535]" = some (.memory 0xFFFF#16) := by decide
theorem test_typer_address_too_large : typeOperand "[65536]" = none := by decide
theorem test_typer_nested : typeOperand "[[4]]" = none := by decide
theorem test_typer_leading_zeros : typeOperand "007" = some (.immediate 7) := by decide
theorem test_typer_i32 : typeOperand "2147483648" = none := by decide
theorem test_typer_case : typeOperand "ax" = none := by decide
/-- `MOV AX, 70000` encodes the low 16 bits. -/
theorem test_encode_truncates :
    encode1 ⟨"MOV", .register .ax, .immediate 70000⟩ = .ok [0xB8#8, 0x70#8, 0x11#8] := by rfl
/-- `ADD [4], 5` passes the Validator and has no encoding. -/
theorem test_add_memory_immediate :
    validate [⟨"ADD", .memory 4#16, .immediate 5⟩] = .ok () ∧
    encode1 ⟨"ADD", .memory 4#16, .immediate 5⟩ = .error .unsupportedEncoding := ⟨rfl, rfl⟩
/-- Scenario D. -/
theorem test_mov_memory_memory :
    validate [⟨"MOV", .memory 0#16, .memory 2#16⟩] = .error (.illegalOperandCombination 0) := by rfl
theorem test_error_codes :
    [ErrorKind.invalidOperand, .illegalOperandCombination, .unsupportedEncoding, .unknownOpcode,
      .invalidRegisterId, .endOfStream, .addressOutOfRange, .programTooLarge].map ErrorKind.code =
    [1, 2, 3, 4, 5, 6, 7, 8] := by decide
theorem test_spelling :
    TypedInstr.spelling ⟨"MOV", .memory 4#16, .register .ax⟩ = "MOV [4], AX" := by decide
/-- `HLT AX`, as `95_test_vectors.md` writes an instruction without a source. -/
theorem test_spelling_one_operand : TypedInstr.spelling ⟨"HLT", .register .ax, .none⟩ = "HLT AX" := by decide

/-! ## Witnesses: the hypotheses of each statement are met together -/

theorem witness_DecodeOfEncode : (Instr.addRI .cx 0xFFFF#16).WellFormed := by decide

theorem witness_DecoderAcceptsOnlyEncodings :
    decodeBytes [0x00#8, 0x8B#8, 0xD8#8, 0xF4#8] 1 = .ok (.movRR .bx .ax, 2) := by rfl

theorem witness_TypedRoundTrip :
    (∃ bytes, encode1 ⟨"MOV", .register .di, .immediate 65535⟩ = .ok bytes) ∧
    (TypedInstr.ImmediateFits ⟨"MOV", .register .di, .immediate 65535⟩) ∧
    decodeTyped [0xF4#8, 0x00#8] 0 = .ok (⟨"HLT", .none, .none⟩, 1) ∧
    (∃ bytes, encode1 ⟨"MOV", .register .ax, .immediate 65536⟩ = .ok bytes) := by
  refine ⟨⟨_, rfl⟩, ?_, rfl, ⟨_, rfl⟩⟩
  intro n h
  cases h
  decide

theorem witness_EncodingTable : Reg.number .cx ≠ 0#3 := by decide

theorem witness_EncoderRefusesAllOtherOperands :
    let rows : List (String × OperandType × OperandType) :=
      [("MOV", .register, .immediate), ("MOV", .register, .register), ("MOV", .register, .memory),
       ("MOV", .memory, .register), ("ADD", .register, .register), ("ADD", .register, .memory),
       ("ADD", .memory, .register), ("ADD", .register, .immediate), ("HLT", .none, .none)]
    "mov" ∉ ["MOV", "ADD", "HLT"] ∧
    (("ADD", TypedOperand.type (.memory 4#16), TypedOperand.type (.immediate 5)) ∉ rows) ∧
    (("HLT", TypedOperand.type (.register .ax), TypedOperand.type .none) ∉ rows) ∧
    (("HLT", TypedOperand.type .none, TypedOperand.type .none) ∈ rows) := by decide

theorem witness_ProgramEncodingConcatenates :
    ([⟨"HLT", .none, .none⟩, ⟨"MOV", .register .bx, .register .ax⟩] : List TypedInstr).map encode1 =
      [[0xF4#8], [0x8B#8, 0xD8#8]].map .ok ∧
    (∀ u ∈ ([⟨"MOV", .register .ax, .immediate 1⟩] : List TypedInstr), ∃ bytes, encode1 u = .ok bytes) ∧
    encode1 ⟨"ADD", .memory 4#16, .immediate 5⟩ = .error .unsupportedEncoding := by
  refine ⟨rfl, ?_, rfl⟩
  intro u hu
  rw [List.mem_singleton.mp hu]
  exact ⟨_, rfl⟩

theorem witness_AddImmediateHasOneEncoding :
    (∃ bytes, encode1 ⟨"ADD", .register .ax, .immediate 100⟩ = .ok bytes) ∧
    decodeTyped [0x05#8, 0x64#8, 0x00#8] 0 = .ok (⟨"ADD", .register .ax, .immediate 100⟩, 3) ∧
    decodeTyped [0x81#8, 0xC7#8, 0x64#8, 0x00#8] 0 = .ok (⟨"ADD", .register .di, .immediate 100⟩, 4) :=
  ⟨⟨_, rfl⟩, rfl, rfl⟩

theorem witness_IllegalFirstByteIsUnknownOpcode :
    (start [0xB7#8]).run = .running ∧
    (start [0xB7#8]).fetchByte (start [0xB7#8]).ip.toNat = .ok 0xB7#8 ∧
    0xB7#8 ∉ [0xB8#8, 0xB9#8, 0xBA#8, 0xBB#8, 0xBC#8, 0xBD#8, 0xBE#8, 0xBF#8,
      0x8B#8, 0x89#8, 0x03#8, 0x01#8, 0x05#8, 0x81#8, 0xF4#8] := ⟨rfl, rfl, by decide⟩

theorem witness_LegalModRMBytes : 0x81#8 ∈ [0x8B#8, 0x03#8, 0x89#8, 0x01#8, 0x81#8] := by decide

theorem witness_IllegalModRMByteIsUnknownOpcode :
    0x81#8 ∈ [0x8B#8, 0x03#8, 0x89#8, 0x01#8, 0x81#8] ∧ legalModRM 0x81#8 0xC0#8 = false := by decide

theorem witness_TruncatedInstructionEndsStream :
    (Instr.movRM .ax 0#16).WellFormed ∧ 3 < (encode (.movRM .ax 0#16)).length := by decide

theorem witness_OnlyDecodeAndAddressErrorsAreRaised :
    decodeBytes [0xB8#8, 0x01#8] 0 = .error (.endOfStream 2) ∧
    (∃ t, step (start [0x8B#8, 0x06#8, 0xFF#8, 0xFF#8]) = .next t ∧
      t.run = .faulted (.addressOutOfRange 0xFFFF#16) 0#16) := ⟨rfl, _, rfl, rfl⟩

/-- An illegal instruction of each of the three opcodes: each clause speaks of one. -/
theorem witness_ValidatorTable :
    TypedInstr.opcode ⟨"MOV", .memory 0#16, .immediate 5⟩ = "MOV" ∧
    TypedInstr.legal ⟨"MOV", .memory 0#16, .immediate 5⟩ = false ∧
    TypedInstr.opcode ⟨"ADD", .memory 0#16, .immediate 5⟩ = "ADD" ∧
    TypedInstr.legal ⟨"ADD", .memory 0#16, .immediate 5⟩ = true ∧
    TypedInstr.opcode ⟨"HLT", .register .ax, .none⟩ = "HLT" ∧
    TypedInstr.legal ⟨"HLT", .register .ax, .none⟩ = false := by decide

theorem witness_UnknownOpcodePassesValidator : "NOP" ≠ "MOV" ∧ "NOP" ≠ "ADD" ∧ "NOP" ≠ "HLT" := by decide

theorem witness_ValidatorReportsFirstViolation :
    (∀ t ∈ ([⟨"HLT", .none, .none⟩] : List TypedInstr), t.legal = true) ∧
    TypedInstr.legal ⟨"HLT", .register .ax, .none⟩ = false := by decide

theorem witness_TranslationStageOrder :
    (∀ u ∈ ([⟨"HLT", "", ""⟩] : List Triple), typeOperand u.operand1 ≠ none ∧ typeOperand u.operand2 ≠ none) ∧
    typeOperand "ax" = none ∧ typeOperand "AX" ≠ none ∧ typeOperand "-5" = none ∧
    ([⟨"MOV", "AX", "5"⟩] : List Triple).map
        (fun t => (t.opcode, typeOperand t.operand1, typeOperand t.operand2)) =
      ([⟨"MOV", .register .ax, .immediate 5⟩] : List TypedInstr).map
        (fun t => (t.opcode, some t.dst, some t.src)) ∧
    validate [⟨"MOV", .register .ax, .immediate 5⟩] = .ok () ∧
    ([⟨"HLT", "AX", ""⟩] : List Triple).map
        (fun t => (t.opcode, typeOperand t.operand1, typeOperand t.operand2)) =
      ([⟨"HLT", .register .ax, .none⟩] : List TypedInstr).map
        (fun t => (t.opcode, some t.dst, some t.src)) ∧
    validate [⟨"HLT", .register .ax, .none⟩] = .error (.illegalOperandCombination 0) := by
  refine ⟨by decide, by decide, by decide, by decide, by decide, rfl, by decide, rfl⟩

theorem witness_SpellingIsTyped : (2147483647 : Nat) ≤ 2147483647 := by decide

theorem witness_LoadPlacesTheStream :
    ([0xF4#8] : List Byte).length ≤ 65536 ∧ 65536 < (List.replicate 65537 0x00#8).length := by
  rw [List.length_replicate]
  decide

/-- The hypothesis of `EveryRunEndsWithinItsBound`, `DriverReport` and `InvariantHoldsAfterLoad`. -/
theorem witness_loaded_stream : load [0xF4#8] = .ok (start [0xF4#8]) := by rfl

/-- The hypothesis of `EveryStateRunsToAnEnd`. -/
theorem start_inv : (start [0xF4#8]).Inv := ⟨by decide, by simp [State.ipFits, start, State.reset]⟩

theorem witness_EveryStateRunsToAnEnd : (start [0xF4#8]).Inv := start_inv

theorem witness_NoStepAfterTheEnd :
    ({ State.reset with run := .faulted (.endOfStream 0) 0#16 } : State).run = .faulted (.endOfStream 0) 0#16 ∧
    ({ State.reset with run := .halted } : State).run ≠ .running := by decide

theorem witness_StepKeepsInvariant :
    (start [0xF4#8]).Inv ∧ ∃ t, step (start [0xF4#8]) = .next t := ⟨start_inv, _, rfl⟩

theorem witness_StepRunsDecodedInstruction :
    (start [0xF4#8]).run = .running ∧ (start [0xF4#8]).decodeAt = .ok (.hlt, 1) := ⟨rfl, rfl⟩

theorem witness_StepRunsEncodedInstruction :
    Instr.hlt.WellFormed ∧ (atTop [0xF4#8]).run = .running ∧ (atTop [0xF4#8]).FetchesAt (encode .hlt) ∧
    (Instr.movRR .bx .ax).WellFormed ∧ (start [0x8B#8, 0xD8#8]).run = .running ∧
    (start [0x8B#8, 0xD8#8]).FetchesAt (encode (.movRR .bx .ax)) ∧
    (start [0x8B#8, 0xD8#8]).ip.toNat + (Instr.movRR .bx .ax).length ≠ 65536 := by
  refine ⟨rfl, rfl, ?_, rfl, rfl, ?_, by decide⟩
  · intro k h
    have hk : k = 0 := by simp [encode] at h; omega
    subst hk
    rfl
  · intro k h
    have hk : k = 0 ∨ k = 1 := by simp [encode, encodeDirect] at h; omega
    rcases hk with rfl | rfl <;> rfl

theorem witness_EndOfMemoryEndsTheRun :
    (atTop [0x03#8, 0xC0#8]).run = .running ∧
    (atTop [0x03#8, 0xC0#8]).decodeAt = .ok (.addRR .ax .ax, 2) ∧
    (atTop [0x03#8, 0xC0#8]).ip.toNat + 2 = 65536 ∧
    (∃ t, exec (.addRR .ax .ax) (atTop [0x03#8, 0xC0#8]) = .next t ∧ t.run = .running) ∧
    (atTop [0xF4#8]).decodeAt = .ok (.hlt, 1) ∧ (atTop [0xF4#8]).ip.toNat + 1 = 65536 :=
  ⟨rfl, rfl, by decide, ⟨_, rfl, rfl⟩, rfl, by decide⟩

theorem witness_ControlFlowIsSequential :
    ∃ t, step (start [0x03#8, 0xC0#8]) = .next t ∧ t.run = .running := ⟨_, rfl, rfl⟩

theorem witness_OnlyHltHalts : ∃ t, step (start [0xF4#8]) = .next t ∧ t.run = .halted := ⟨_, rfl, rfl⟩

theorem witness_ErrorsArePrecise :
    (∃ t, step (start [0x0F#8]) = .next t ∧ t.run = .faulted (.unknownOpcode 0x0F#8 none) 0#16) ∧
    (∃ t, step (atTop [0x03#8, 0xC0#8]) = .next t ∧ t.run = .faulted (.endOfStream 65536) 0#16) :=
  ⟨⟨_, rfl, rfl⟩, ⟨_, rfl, rfl⟩⟩

/-- One state for each of the six conditions of spec R313. -/
theorem witness_ErrorOrder :
    (start []).len.val ≤ (start []).ip.toNat ∧
    ((start [0x0F#8]).fetchByte 0 = .ok 0x0F#8 ∧ legalOpcode 0x0F#8 = false) ∧
    ((start [0x8B#8]).fetchByte 0 = .ok 0x8B#8 ∧ hasModRM 0x8B#8 = true ∧ (start [0x8B#8]).len.val ≤ 0 + 1) ∧
    ((start [0x8B#8, 0x05#8]).fetchByte 1 = .ok 0x05#8 ∧ legalModRM 0x8B#8 0x05#8 = false) ∧
    ((start [0x8B#8, 0x06#8]).fetchByte 1 = .ok 0x06#8 ∧ legalModRM 0x8B#8 0x06#8 = true ∧
      modrmMode 0x06#8 = 0b00#2 ∧ (start [0x8B#8, 0x06#8]).len.val ≤ 0 + 2) ∧
    ((start [0x05#8, 0x01#8]).fetchByte 0 = .ok 0x05#8 ∧ legalOpcode 0x05#8 = true ∧
      hasModRM 0x05#8 = false ∧ (start [0x05#8, 0x01#8]).len.val = 0 + 1 + 1) ∧
    (start [0x89#8, 0x06#8, 0xFF#8, 0xFF#8]).decodeAt = .ok (.movMR 0xFFFF#16 .ax, 4) := by
  refine ⟨by decide, ⟨rfl, by decide⟩, ⟨rfl, by decide, by decide⟩, ⟨rfl, by decide⟩,
    ⟨rfl, by decide, by decide, by decide⟩, ⟨rfl, by decide, by decide, by decide⟩, rfl⟩

theorem witness_OnlyTheDestinationRegisterChanges :
    ∃ t, step (start [0xBC#8, 0xFE#8, 0xFF#8]) = .next t ∧
      t.reg .sp ≠ (start [0xBC#8, 0xFE#8, 0xFF#8]).reg .sp := ⟨_, rfl, by decide⟩

theorem witness_OnlyStoresChangeMemory :
    ∃ t, step ((start [0x89#8, 0x06#8, 0x04#8, 0x00#8]).setReg .ax 7#16) = .next t ∧
      t.mem.read 4 ≠ ((start [0x89#8, 0x06#8, 0x04#8, 0x00#8]).setReg .ax 7#16).mem.read 4 :=
  ⟨_, rfl, by decide⟩

theorem witness_LoadedLengthIsConstant : ∃ t, step (start [0xF4#8]) = .next t := ⟨_, rfl⟩

/-- Two machines that differ at `L` and in a register. -/
theorem witness_DecodingSeesOnlyTheProgram :
    let s := start [0xF4#8]
    let t : State := { s.setReg .ax 1#16 with mem := s.mem.write 1 0xFF#8 }
    s.ip = t.ip ∧ s.len = t.len ∧ s.mem ≠ t.mem ∧ (∀ a, a < s.len.val → s.mem.read a = t.mem.read a) := by
  decide

theorem witness_CanonicalMemoriesAreEqual :
    Memory.wf [(0, 0x01#8), (65535, 0xFF#8)] = true ∧
    ∀ a, a < 65536 → Memory.read [(0, 0x01#8), (65535, 0xFF#8)] a =
      Memory.read [(0, 0x01#8), (65535, 0xFF#8)] a := ⟨by decide, fun _ _ => rfl⟩

/-- Both stores, at the last address at which a word can be accessed: 7 moved, and 7 added to 0. -/
theorem witness_StoredWordIsFetched :
    let s := (start [0xF4#8]).setReg .ax 7#16
    0xFFFE#16 ≠ 0xFFFF#16 ∧ 7#16 = s.reg .ax ∧
    (7#16).toNat = ((s.mem.readWord 0xFFFE#16).toNat + (s.reg .ax).toNat) % 65536 := by decide

/-- The last address at which a word can be accessed: the hypothesis of `MovLoadResult`,
`MovStoreResult`, `AddLoadResult` and `AddStoreResult`. -/
theorem witness_memory_forms : 0xFFFE#16 ≠ 0xFFFF#16 := by decide

end Sys2Proof.Tests
end

section
/-! Every step that leaves the run `Running` moves `ip` up through the loaded program, so that a run has no
more steps than bytes left, and one more: the driver never receives an unfinished run. -/

namespace Sys2Proof

theorem Instr.length_pos (i : Instr) : 0 < i.length := by cases i <;> simp [Instr.length]

end Sys2Proof

namespace Sys2Proof.Machine

/-! ## The decoded instruction lies in the program -/

/-- The last byte of a decoded instruction was fetched, so it stands below the loaded length. -/
theorem State.decodeAt_ok {s : State} {i : Instr} {n : Nat} (h : s.decodeAt = .ok (i, n)) :
    i.WellFormed ∧ n = i.length ∧ s.ip.toNat + i.length ≤ s.len.val := by
  obtain ⟨hwf, hn, hbytes⟩ := decodeWith_ok h
  refine ⟨hwf, hn, ?_⟩
  have hpos := i.length_pos
  have hlast := hbytes (i.length - 1) (by rw [encode_length]; omega)
  rcases s.fetchByte_cases (s.ip.toNat + (i.length - 1)) with ⟨hlt, _⟩ | ⟨_, herror⟩
  · omega
  · rw [herror] at hlast
    cases hlast

/-! ## The step -/

theorem afterExec_next (s u : State) (i : Instr) (n : Nat) :
    ∃ t, afterExec s i n (.next u) = .next t := by
  simp only [afterExec]
  split <;> exact ⟨_, rfl⟩

/-- A running machine has a step (spec R145): no instruction answers a fault or a refusal. -/
theorem step_of_running {s : State} (hs : s.run = .running) : ∃ t, step s = .next t := by
  unfold step
  rw [hs]
  cases s.decodeAt with
  | error e => exact ⟨_, rfl⟩
  | ok decoded =>
    obtain ⟨i, n⟩ := decoded
    rcases exec_cases i s with ⟨_, hexec⟩ | ⟨u, hexec, _⟩
    all_goals
      simp only [hexec]
      exact afterExec_next ..

/-- A run that has ended has no step (spec R411). -/
theorem step_of_ended {s : State} (hs : s.Ended) : ∃ f, step s = .fault f := by
  unfold step
  cases hrun : s.run with
  | running => exact absurd hrun hs
  | halted => exact ⟨_, rfl⟩
  | faulted e a => exact ⟨_, rfl⟩

/-- A step that leaves the run `Running` completed an instruction other than HLT, decoded within the
program, and moved `ip` past it without wrapping (spec R37, R145). -/
theorem step_to_running {s t : State} (h : step s = .next t) (ht : t.run = .running) :
    ∃ i, s.decodeAt = .ok (i, i.length) ∧ i ≠ .hlt ∧ Completed i s t ∧
      t.ip.toNat = s.ip.toNat + i.length ∧ t.ip.toNat ≤ t.len.val := by
  obtain ⟨_, ⟨e, _, rfl⟩ | ⟨i, n, hdecode, hafter⟩⟩ := step_cases h
  · cases ht
  obtain ⟨_, rfl, hin⟩ := State.decodeAt_ok hdecode
  rcases exec_cases i s with ⟨_, hexec⟩ | ⟨u, hexec, hdone⟩
  · rw [hexec] at hafter
    rcases afterExec_cases hafter with ⟨_, _, hu, _⟩ | ⟨_, rfl⟩
    · cases hu
    · cases ht
  · rw [hexec] at hafter
    rcases afterExec_cases hafter with ⟨_, _, _, rfl⟩ | ⟨hbelow, rfl⟩
    · cases ht
    have hhlt : i ≠ .hlt := by
      rintro rfl
      have hrun := hdone.run
      simp [ht] at hrun
    have hfits : s.ip.toNat + i.length < 65536 := by
      have hlen := s.len_le
      have htop : s.ip.toNat + i.length ≠ 65536 := fun hend => hbelow ⟨hhlt, hend, ht⟩
      omega
    have hip : t.ip.toNat = s.ip.toNat + i.length := by
      rw [hdone.ip, BitVec.toNat_add, BitVec.toNat_ofNat]
      omega
    exact ⟨i, hdecode, hhlt, hdone, hip, by rw [hip, hdone.len]; exact hin⟩

/-! ## The run loop -/

theorem runFor_of_ended {s : State} (hs : s.Ended) : ∀ k, runFor k s = s
  | 0 => rfl
  | k + 1 => by
    obtain ⟨f, hf⟩ := step_of_ended hs
    simp [runFor, hf]

theorem runFor_succ_of_next {s t : State} (h : step s = .next t) (k : Nat) :
    runFor (k + 1) s = runFor k t := by
  simp [runFor, h]

/-- A run ends within one step more than the bytes left of its program (spec R146, R424): each step
that does not end it leaves fewer. -/
theorem runFor_ended {k : Nat} {s : State} (hk : s.len.val - s.ip.toNat < k) : (runFor k s).Ended := by
  induction k generalizing s with
  | zero => omega
  | succ k ih =>
    by_cases hs : s.run = .running
    · obtain ⟨t, hstep⟩ := step_of_running hs
      rw [runFor_succ_of_next hstep]
      by_cases ht : t.run = .running
      · obtain ⟨i, _, _, hdone, hip, hin⟩ := step_to_running hstep ht
        have hpos := i.length_pos
        have hlen : t.len.val = s.len.val := by rw [hdone.len]
        exact ih (by omega)
      · rwa [runFor_of_ended ht]
    · rwa [runFor_of_ended hs]

/-! ## Load and report -/

/-- What a load that succeeds answers (spec R401). -/
theorem load_ok {stream : List Byte} {s : State} (h : load stream = .ok s) :
    ∃ hlen : stream.length < Config.memorySize + 1,
      s = { State.reset with mem := Memory.store [] 0 stream, len := ⟨stream.length, hlen⟩ } := by
  unfold load at h
  split at h
  · rename_i hlen
    cases h
    exact ⟨hlen, rfl⟩
  · cases h

theorem executeUnit_of_load {stream : List Byte} {s : State} (h : load stream = .ok s) :
    executeUnit stream = (runFor (stream.length + 1) s).report := by
  simp [executeUnit, h]

/-- An ended run is reported as its registers or as its error, never as unfinished (spec R16, R310). -/
theorem State.report_of_ended {s : State} (hs : s.Ended) :
    (s.run = .halted ∧ s.report = .finished ⟨s.reg .ax, s.reg .bx, s.reg .cx, s.reg .dx⟩) ∨
    (∃ e a, s.run = .faulted e a ∧ s.report = .failed e a) := by
  unfold State.report
  cases hrun : s.run with
  | running => exact absurd hrun hs
  | halted => exact .inl ⟨rfl, rfl⟩
  | faulted e a => exact .inr ⟨e, a, rfl, rfl⟩

/-- Settles O25: the `L + 1` steps of the execute unit suffice from a loaded state, whose `ip` is 0, and an
ended run is reported. -/
theorem driverReport : Obligations.DriverReport := by
  unfold Obligations.DriverReport
  intro stream s hload
  rw [executeUnit_of_load hload]
  apply State.report_of_ended
  apply runFor_ended
  obtain ⟨_, rfl⟩ := load_ok hload
  exact Nat.lt_succ_of_le (Nat.sub_le _ _)

end Sys2Proof.Machine
end

section
/-! The state of a run: the register table, the values at reset and after a load, the one list that a canonical
memory is, and what one step keeps. Every frame and invariant of the step is read off `step_outcome`. -/

namespace Sys2Proof

/-- No two registers share a name, so a name is read back as its register (spec R30, R161). -/
@[simp] theorem Reg.ofName_name (r : Reg) : Reg.ofName r.name = some r := by cases r <;> rfl

/-- Settles O14: the table row by row, then the two ways of reading a register back. -/
theorem registerTable : Obligations.RegisterTable := by
  unfold Obligations.RegisterTable
  exact ⟨rfl, fun r => ⟨Reg.ofNumber_number r, Reg.ofName_name r⟩, Reg.number_ofNumber⟩

end Sys2Proof

namespace Sys2Proof.Machine

/-! ## Registers -/

/-- Settles O46, from the laws of the register file. -/
theorem everyRegisterHoldsItsValue : Obligations.EveryRegisterHoldsItsValue := by
  unfold Obligations.EveryRegisterHoldsItsValue
  intro s d v
  exact ⟨s.reg_setReg_same d v, fun _ hr => s.reg_setReg_other v hr, fun _ => rfl⟩

/-! ## The canonical form of memory -/

theorem Memory.wfFrom_cons {lo a : Nat} {b : Byte} {rest : Memory} :
    Memory.wfFrom lo ((a, b) :: rest) = true ↔
      lo ≤ a ∧ a < 65536 ∧ b ≠ unlistedByte ∧ Memory.wfFrom (a + 1) rest = true := by
  simp [Memory.wfFrom, unlistedByte, and_assoc]

@[simp] theorem Memory.read_nil (c : Nat) : Memory.read [] c = unlistedByte := rfl

@[simp] theorem Memory.read_cons_self (a : Nat) (b : Byte) (rest : Memory) :
    Memory.read ((a, b) :: rest) a = b := if_pos rfl

theorem Memory.read_cons_of_ne {a c : Nat} (h : c ≠ a) (b : Byte) (rest : Memory) :
    Memory.read ((a, b) :: rest) c = Memory.read rest c := if_neg h.symm

/-- A canonical memory lists nothing below its lower bound. -/
theorem Memory.read_of_lt_wfFrom {lo c : Nat} {m : Memory} (hm : Memory.wfFrom lo m = true)
    (hc : c < lo) : m.read c = unlistedByte := by
  induction m generalizing lo with
  | nil => rfl
  | cons x rest ih =>
    obtain ⟨a, b⟩ := x
    obtain ⟨hlo, _, _, hrest⟩ := Memory.wfFrom_cons.mp hm
    rw [Memory.read_cons_of_ne (by omega)]
    exact ih hrest (by omega)

/-- A memory that reads like a canonical one with first address `a` has a first address too, and none above
`a`: it has to list the byte at `a`. -/
theorem Memory.exists_head_le {lo lo' a : Nat} {b : Byte} {rest m : Memory}
    (hx : Memory.wfFrom lo ((a, b) :: rest) = true) (hm : Memory.wfFrom lo' m = true)
    (hread : ∀ c, c < 65536 → Memory.read ((a, b) :: rest) c = m.read c) :
    ∃ k v more, m = (k, v) :: more ∧ k ≤ a := by
  obtain ⟨_, ha, hb, _⟩ := Memory.wfFrom_cons.mp hx
  have hlisted : m.read a = b := by rw [← hread a ha, Memory.read_cons_self]
  cases m with
  | nil => exact absurd hlisted.symm hb
  | cons y more =>
    obtain ⟨k, v⟩ := y
    obtain ⟨_, hk, hv, hmore⟩ := Memory.wfFrom_cons.mp hm
    refine ⟨k, v, more, rfl, Nat.le_of_not_lt fun hak => hb ?_⟩
    have hfrom : Memory.wfFrom k ((k, v) :: more) = true :=
      Memory.wfFrom_cons.mpr ⟨le_rfl, hk, hv, hmore⟩
    rw [← hlisted, Memory.read_of_lt_wfFrom hfrom hak]

/-- Canonical memories that read alike are the same list: their first addresses bound each other, so they
agree, and the rests read alike. -/
theorem Memory.eq_of_read_eq {lo : Nat} {m m' : Memory} (hm : Memory.wfFrom lo m = true)
    (hm' : Memory.wfFrom lo m' = true) (hread : ∀ c, c < 65536 → m.read c = m'.read c) : m = m' := by
  induction m generalizing lo m' with
  | nil =>
    cases m' with
    | nil => rfl
    | cons y more =>
      obtain ⟨_, _, _, hnil, _⟩ := Memory.exists_head_le hm' hm fun c hc => (hread c hc).symm
      cases hnil
  | cons x rest ih =>
    obtain ⟨a, b⟩ := x
    obtain ⟨k, v, more, rfl, hka⟩ := Memory.exists_head_le hm hm' hread
    obtain ⟨_, _, _, hhead, hak⟩ := Memory.exists_head_le hm' hm fun c hc => (hread c hc).symm
    cases hhead
    obtain rfl : a = k := Nat.le_antisymm hak hka
    obtain ⟨_, ha, _, hrest⟩ := Memory.wfFrom_cons.mp hm
    obtain ⟨_, _, _, hmore⟩ := Memory.wfFrom_cons.mp hm'
    have hbyte : b = v := by simpa using hread a ha
    have htail : ∀ c, c < 65536 → Memory.read rest c = Memory.read more c := by
      intro c hc
      by_cases hle : c < a + 1
      · rw [Memory.read_of_lt_wfFrom hrest hle, Memory.read_of_lt_wfFrom hmore hle]
      · have hne : c ≠ a := by omega
        simpa only [Memory.read_cons_of_ne hne] using hread c hc
    rw [hbyte, ih hrest hmore htail]

/-- Settles O42. -/
theorem canonicalMemoriesAreEqual : Obligations.CanonicalMemoriesAreEqual := by
  unfold Obligations.CanonicalMemoriesAreEqual
  intro m m' hm hm' hread
  exact Memory.eq_of_read_eq hm hm' hread

/-! ## Reset and load -/

@[simp] theorem State.reset_reg (r : Reg) : State.reset.reg r = 0#16 := by cases r <;> rfl

/-- Settles O21. -/
theorem resetValues : Obligations.ResetValues := by
  unfold Obligations.ResetValues
  exact ⟨State.reset_reg, rfl, rfl, fun _ => rfl, rfl⟩

/-- Settles O28. -/
theorem invariantHoldsAtReset : Obligations.InvariantHoldsAtReset := by
  unfold Obligations.InvariantHoldsAtReset
  exact ⟨Memory.wf_reset, Nat.le_refl 0⟩

/-- Settles O29: the stream fits below 0x10000, so storing it keeps the canonical form, and `ip` is 0. -/
theorem invariantHoldsAfterLoad : Obligations.InvariantHoldsAfterLoad := by
  unfold Obligations.InvariantHoldsAfterLoad
  intro stream s hload
  obtain ⟨hlen, rfl⟩ := load_ok hload
  rw [Config.memorySize_eq] at hlen
  exact ⟨Memory.wf_store stream 0 (by omega) Memory.wf_reset, Nat.zero_le stream.length⟩

/-- A stream that fits in memory is loaded (spec R401). -/
theorem load_of_fits {stream : List Byte} (h : stream.length < Config.memorySize + 1) :
    load stream =
      .ok { State.reset with mem := Memory.store [] 0 stream, len := ⟨stream.length, h⟩ } := dif_pos h

/-- A stream that does not fit in memory is refused (spec R305). -/
theorem load_of_too_long {stream : List Byte} (h : 65536 < stream.length) :
    load stream = .error (.programTooLarge stream.length) :=
  dif_neg (by rw [Config.memorySize_eq]; omega)

/-- The bytes of a fresh memory after a stream is stored at address 0. -/
theorem Memory.read_store_fresh (stream : List Byte) (a : Nat) :
    (Memory.store [] 0 stream).read a = if h : a < stream.length then stream[a] else 0x00#8 := by
  rw [Memory.read_store]
  simp [unlistedByte]

/-- A run whose `ip` is at or past the loaded length faults on its first fetch (spec R66). -/
theorem step_of_len_le {s : State} (hs : s.run = .running) (h : s.len.val ≤ s.ip.toNat) :
    step s = .next (s.raise (.endOfStream s.ip.toNat)) := by
  have hdecode : s.decodeAt = .error (.endOfStream s.ip.toNat) := by
    rcases s.fetchByte_cases s.ip.toNat with ⟨hlt, _⟩ | ⟨_, hfetch⟩
    · omega
    · simp [State.decodeAt, decodeWith, hfetch, Bind.bind, Except.bind]
  simp only [step, hs, hdecode]

/-- Settles O22: the bytes of the loaded memory by `Memory.read_store_fresh`, and the empty stream's first
step by `step_of_len_le`. -/
theorem loadPlacesTheStream : Obligations.LoadPlacesTheStream := by
  unfold Obligations.LoadPlacesTheStream
  refine ⟨fun stream hfits => ?_, fun stream hlong => ?_, ?_⟩
  · refine ⟨_, load_of_fits (Nat.lt_succ_of_le hfits), State.reset_reg, rfl, rfl, rfl, ?_, ?_⟩
    · intro a ha
      exact (Memory.read_store_fresh stream a).trans (dif_pos ha)
    · intro a ha
      exact (Memory.read_store_fresh stream a).trans (dif_neg (Nat.not_lt.mpr ha))
  · exact ⟨load_of_too_long hlong, by simp only [executeUnit, load_of_too_long hlong]⟩
  · exact ⟨_, load_of_fits (stream := []) (Nat.zero_lt_succ _), step_of_len_le rfl (Nat.le_refl 0)⟩

/-! ## What one step leaves -/

/-- All that a step can do (spec R145): it raises and changes nothing else, or the decoded instruction
completes, after which, for one other than HLT that ends at 0xFFFF, `EndOfStream` may still be raised. -/
theorem step_outcome {s t : State} (h : step s = .next t) :
    (∃ e, t = s.raise e) ∨
    (∃ i u, s.decodeAt = .ok (i, i.length) ∧ Completed i s u ∧
      (t = u ∨ t = u.raise (.endOfStream 65536))) := by
  obtain ⟨_, ⟨e, _, rfl⟩ | ⟨i, n, hdecode, hafter⟩⟩ := step_cases h
  · exact .inl ⟨e, rfl⟩
  obtain ⟨_, rfl, _⟩ := State.decodeAt_ok hdecode
  rcases exec_cases i s with ⟨_, hexec⟩ | ⟨u, hexec, hdone⟩
  · rw [hexec] at hafter
    rcases afterExec_cases hafter with ⟨_, _, hrun, _⟩ | ⟨_, rfl⟩
    · cases hrun
    · exact .inl ⟨_, rfl⟩
  · rw [hexec] at hafter
    rcases afterExec_cases hafter with ⟨_, _, _, rfl⟩ | ⟨_, rfl⟩
    · exact .inr ⟨i, u, hdecode, hdone, .inr rfl⟩
    · exact .inr ⟨i, t, hdecode, hdone, .inl rfl⟩

/-- Every step keeps the canonical form of memory: no instruction stores a byte at or past 0x10000. -/
theorem step_mem_wf {s t : State} (h : step s = .next t) (hs : s.mem.wf = true) : t.mem.wf = true := by
  rcases step_outcome h with ⟨e, rfl⟩ | ⟨i, u, _, hdone, rfl | rfl⟩
  · exact hs
  · exact hdone.wf hs
  · exact hdone.wf hs

theorem State.ipFits_raise (s : State) (e : RunError) : (s.raise e).ipFits := rfl

theorem State.ipFits_of_running {s : State} (hs : s.run = .running) (h : s.ip.toNat ≤ s.len.val) :
    s.ipFits := by simpa only [State.ipFits, hs] using h

theorem State.ipFits_of_halted {s : State} (hs : s.run = .halted) : s.ipFits := by
  simp only [State.ipFits, hs]

/-- After every step `ip` fits the run state, whether it did before or not: a decoded instruction lies within
the loaded program. -/
theorem step_ipFits {s t : State} (h : step s = .next t) : t.ipFits := by
  rcases step_outcome h with ⟨e, rfl⟩ | ⟨i, u, _, hdone, rfl | rfl⟩
  · exact s.ipFits_raise e
  · have hrun := hdone.run
    obtain ⟨hs, _⟩ := step_cases h
    by_cases hhlt : i = .hlt
    · exact State.ipFits_of_halted (by rw [hrun, if_pos hhlt])
    · have ht : t.run = .running := by rw [hrun, if_neg hhlt, hs]
      obtain ⟨_, _, _, _, _, hin⟩ := step_to_running h ht
      exact State.ipFits_of_running ht hin
  · exact u.ipFits_raise _

/-- Settles O27: memory stays canonical by `step_mem_wf`, and `ip` fits by `step_ipFits`. -/
theorem stepKeepsInvariant : Obligations.StepKeepsInvariant := by
  unfold Obligations.StepKeepsInvariant
  intro s t hinv hstep
  exact ⟨step_mem_wf hstep hinv.canonical, step_ipFits hstep⟩

/-- Settles O39. -/
theorem loadedLengthIsConstant : Obligations.LoadedLengthIsConstant := by
  unfold Obligations.LoadedLengthIsConstant
  intro s t hstep
  rcases step_outcome hstep with ⟨e, rfl⟩ | ⟨i, u, _, hdone, rfl | rfl⟩
  · rfl
  · exact hdone.len
  · exact hdone.len

/-- Settles O37: a step that raises changes no register, and a completed instruction only its destination. -/
theorem onlyTheDestinationRegisterChanges : Obligations.OnlyTheDestinationRegisterChanges := by
  unfold Obligations.OnlyTheDestinationRegisterChanges
  intro s t r hstep hchanged
  rcases step_outcome hstep with ⟨e, rfl⟩ | ⟨i, u, hdecode, hdone, hend⟩
  · exact absurd rfl hchanged
  · have hreg : t.reg r = u.reg r := by rcases hend with rfl | rfl <;> rfl
    refine ⟨i, i.length, hdecode, by_contra fun hother => hchanged ?_⟩
    rw [hreg, hdone.reg r hother]

/-- Settles O33, by `step_to_running`. -/
theorem controlFlowIsSequential : Obligations.ControlFlowIsSequential := by
  unfold Obligations.ControlFlowIsSequential
  intro s t hstep ht
  obtain ⟨i, hdecode, hhlt, _, hip, _⟩ := step_to_running hstep ht
  exact ⟨i, i.length, hdecode, hhlt, i.length_pos, hip⟩

/-! ## The end of memory -/

/-- The step of a running machine is its decoded instruction's, with the last line of spec R145. -/
theorem step_of_decodeAt {s : State} {i : Instr} {n : Nat} (hs : s.run = .running)
    (h : s.decodeAt = .ok (i, n)) : step s = afterExec s i n (exec i s) := by
  simp only [step, hs, h]

/-- Past an instruction that ends at 0xFFFF, `ip` is 0 modulo 2^16 (spec R37). -/
theorem add_length_eq_zero {ip : Word} {n : Nat} (hend : ip.toNat + n = 65536) :
    ip + BitVec.ofNat 16 n = 0#16 := by
  apply BitVec.eq_of_toNat_eq
  simp [hend]

/-- HLT runs to its end wherever it is decoded (spec R240). -/
theorem step_hlt {s : State} {n : Nat} (hs : s.run = .running) (h : s.decodeAt = .ok (.hlt, n)) :
    step s = .next ((s.advance 1).halt) := by
  rw [step_of_decodeAt hs h]
  simp [afterExec, exec, execHlt]

/-- D21: an instruction other than HLT that completes and ends at 0xFFFF is followed by the fetch that
raises. -/
theorem step_end_of_memory {s t : State} {i : Instr} {n : Nat} (hs : s.run = .running)
    (h : s.decodeAt = .ok (i, n)) (hhlt : i ≠ .hlt) (hend : s.ip.toNat + n = 65536)
    (hexec : exec i s = .next t) (ht : t.run = .running) :
    step s = .next (t.raise (.endOfStream 65536)) := by
  rw [step_of_decodeAt hs h, hexec]
  exact if_pos ⟨hhlt, hend, ht⟩

/-- An execution that leaves the run `Running` completed its instruction. -/
theorem completed_of_exec_running {i : Instr} {s t : State} (hexec : exec i s = .next t)
    (ht : t.run = .running) : Completed i s t := by
  rcases exec_cases i s with ⟨_, hraise⟩ | ⟨u, hu, hdone⟩
  · rw [hexec] at hraise
    cases hraise
    cases ht
  · rw [hexec] at hu
    cases hu
    exact hdone

/-- Settles O32: the bound is the decoder's, and `ip` past 0xFFFF is 0 by `add_length_eq_zero`. -/
theorem endOfMemoryEndsTheRun : Obligations.EndOfMemoryEndsTheRun := by
  unfold Obligations.EndOfMemoryEndsTheRun
  intro s i n hs hdecode
  obtain ⟨_, rfl, hin⟩ := State.decodeAt_ok hdecode
  refine ⟨hin, fun hend => ⟨?_, ?_, ?_⟩⟩
  · have hlen := s.len_le
    omega
  · rintro rfl
    exact ⟨_, step_hlt hs hdecode, rfl, add_length_eq_zero hend⟩
  · intro hhlt t hexec ht
    have hip : t.ip = 0#16 :=
      (completed_of_exec_running hexec ht).ip.trans (add_length_eq_zero hend)
    refine ⟨hip, ?_⟩
    rw [step_end_of_memory hs hdecode hhlt hend hexec ht, State.raise, hip]

end Sys2Proof.Machine
end

section
/-! Memory: words and their bytes, what the two storing forms write and what a later fetch sees of it, and the
address 0xFFFF, at which no word stands. -/

namespace Sys2Proof.Machine

/-! ## Words -/

/-- Reading back a word that was written gives it, at 0xFFFF too, where the second byte does not land on the
first. -/
@[simp] theorem Memory.readWord_writeWord (m : Memory) (a v : Word) :
    (m.writeWord a v).readWord a = v := by
  simp [Memory.readWord, Memory.read_writeWord]

/-- Settles O41: the bytes of a word read are those it was joined from, and the bytes of a memory written are
`Memory.read_writeWord`. -/
theorem wordsAreLittleEndian : Obligations.WordsAreLittleEndian := by
  unfold Obligations.WordsAreLittleEndian
  intro m a v
  refine ⟨lo8_joinBytes _ _, hi8_joinBytes _ _, ?_, ?_, ?_, m.readWord_writeWord a v⟩
  · simp [Memory.read_writeWord, lo8]
  · simp [Memory.read_writeWord, hi8]
  · intro b hlow hhigh
    rw [Memory.read_writeWord, if_neg hhigh, if_neg hlow]

/-- A word with the value of a sum modulo 2^16 is what ADD computes (spec R225). -/
theorem eq_add16_of_toNat {p q v : Word} (h : v.toNat = (p.toNat + q.toNat) % 65536) :
    v = add16 p q := by
  rw [add16_eq_add]
  exact BitVec.eq_of_toNat_eq (h.trans (BitVec.toNat_add p q).symm)

/-! ## The storing forms -/

/-- `MOV [a], r16` below the top of memory (spec R206). -/
theorem exec_movMR {a : Word} (ha : a ≠ 0xFFFF#16) (r : Reg) (s : State) :
    exec (.movMR a r) s =
      .next (({ s with mem := s.mem.writeWord a (s.reg r) } : State).advance 4) := by
  simp [exec, execMovMR, ha, Bind.bind, Except.bind, pure, Except.pure]

/-- `ADD [a], r16` below the top of memory (spec R224). -/
theorem exec_addMR {a : Word} (ha : a ≠ 0xFFFF#16) (r : Reg) (s : State) :
    exec (.addMR a r) s =
      .next (({ s with mem := s.mem.writeWord a (add16 (s.mem.readWord a) (s.reg r)) } : State).advance
        4) := by
  simp [exec, execAddMR, ha, Bind.bind, Except.bind, pure, Except.pure]

/-- Every form with a memory operand raises at 0xFFFF, before any write (spec R65, R304). -/
theorem exec_top {i : Instr} (h : i.dataAddress = some 0xFFFF#16) (s : State) :
    exec i s = .next (s.raise (.addressOutOfRange 0xFFFF#16)) := by
  cases i with
  | movRM d a | movMR a r | addRM d a | addMR a r =>
    cases h
    rfl
  | movRI | movRR | addRR | addAI | addRI | hlt => cases h

/-- Settles O44, by `exec_top`. -/
theorem topOfMemoryIsOutOfRange : Obligations.TopOfMemoryIsOutOfRange := by
  unfold Obligations.TopOfMemoryIsOutOfRange
  intro s r
  exact ⟨exec_top rfl s, exec_top rfl s, exec_top rfl s, exec_top rfl s⟩

/-- Settles O38: a step that raises changes no byte, and a completed instruction only the two of the word it
stores. -/
theorem onlyStoresChangeMemory : Obligations.OnlyStoresChangeMemory := by
  unfold Obligations.OnlyStoresChangeMemory
  intro s t b hstep hchanged
  rcases step_outcome hstep with ⟨e, rfl⟩ | ⟨i, u, hdecode, hdone, hend⟩
  · exact absurd rfl hchanged
  have hread : u.mem.read b ≠ s.mem.read b := by rcases hend with rfl | rfl <;> exact hchanged
  cases hstore : i.storesTo with
  | none => exact absurd (hdone.read b (by simp [hstore])) hread
  | some a =>
    refine ⟨i, i.length, a, hdecode, hstore, hdone.target a hstore, by_contra fun hother => ?_⟩
    refine hread (hdone.read b fun a' ha' => ?_)
    obtain rfl : a = a' := Option.some.inj (hstore.symm.trans ha')
    exact not_or.mp hother

/-! ## What a fetch sees -/

/-- A fetch depends on the loaded length, and below it on the byte of memory (spec R66). -/
theorem State.fetchByte_congr {s t : State} {a : Nat} (hlen : s.len = t.len)
    (hread : a < s.len.val → s.mem.read a = t.mem.read a) : s.fetchByte a = t.fetchByte a := by
  unfold State.fetchByte
  rw [← hlen]
  split
  · rw [hread ‹_›]
  · rfl

/-- Settles O40: the two decoders make the same fetches, and each gives the same by `State.fetchByte_congr`. -/
theorem decodingSeesOnlyTheProgram : Obligations.DecodingSeesOnlyTheProgram := by
  unfold Obligations.DecodingSeesOnlyTheProgram
  intro s t hip hlen hread
  have hfetch : ∀ a, s.fetchByte a = t.fetchByte a := fun a => State.fetchByte_congr hlen (hread a)
  simp only [State.decodeAt, hip, hfetch]

@[simp] theorem State.fetchByte_advance (s : State) (n a : Nat) :
    (s.advance n).fetchByte a = s.fetchByte a := rfl

/-- Program and data share one memory: a fetch below `L` sees the bytes of a stored word (spec R73). -/
theorem State.fetchByte_writeWord (s : State) (a v : Word) (b : Nat) :
    ({ s with mem := s.mem.writeWord a v } : State).fetchByte b =
      if s.len.val ≤ b then .error (.endOfStream b)
      else if b = a.toNat then .ok (lo8 v)
      else if b = a.toNat + 1 then .ok (hi8 v)
      else s.fetchByte b := by
  by_cases hend : s.len.val ≤ b
  · simp only [State.fetchByte, if_neg (Nat.not_lt.mpr hend), if_pos hend]
  · simp only [State.fetchByte, if_pos (Nat.lt_of_not_le hend), if_neg hend, Memory.read_writeWord]
    by_cases hlow : b = a.toNat
    · simp [hlow]
    · by_cases hhigh : b = a.toNat + 1 <;> simp [hlow, hhigh]

/-- Settles O43: either form stores `v`, by its equation, and `State.fetchByte_writeWord` says what a fetch
then sees. -/
theorem storedWordIsFetched : Obligations.StoredWordIsFetched := by
  unfold Obligations.StoredWordIsFetched
  intro s a v r i ha hform
  have hexec : exec i s = .next (({ s with mem := s.mem.writeWord a v } : State).advance 4) := by
    rcases hform with ⟨rfl, rfl⟩ | ⟨rfl, hsum⟩
    · exact exec_movMR ha r s
    · rw [eq_add16_of_toNat hsum]
      exact exec_addMR ha r s
  refine ⟨_, hexec, fun b => ?_⟩
  rw [State.fetchByte_advance]
  exact s.fetchByte_writeWord a v b

end Sys2Proof.Machine
end

section
/-! The decoder and the encoder over byte sequences: `decodeBytes_ok_iff` says all that a decoding answers, and
`TypedInstr.form_ok_iff` all that the encoder accepts; the round trips are read off the two. -/

namespace Sys2Proof

/-! ## Decoding a byte sequence -/

theorem streamByte_ok_iff {bytes : List Byte} {a : Nat} {b : Byte} :
    streamByte bytes a = .ok b ↔ bytes[a]? = some b := by
  unfold streamByte
  cases bytes[a]? <;> simp

/-- The bytes of a part of the sequence are fetched one by one exactly where that part stands. -/
theorem streamByte_part_iff {bytes part : List Byte} {offset : Nat} :
    (∀ k, (hk : k < part.length) → streamByte bytes (offset + k) = .ok part[k]) ↔
      (bytes.drop offset).take part.length = part := by
  simp only [streamByte_ok_iff]
  constructor
  · intro hfetch
    apply List.ext_getElem?
    intro k
    by_cases hk : k < part.length
    · rw [List.getElem?_take_of_lt hk, List.getElem?_drop, hfetch k hk, List.getElem?_eq_getElem hk]
    · rw [List.getElem?_eq_none (Nat.le_of_not_lt hk), List.getElem?_eq_none (by simp; omega)]
  · intro hpart k hk
    rw [← List.getElem?_drop, ← List.getElem?_take_of_lt hk, hpart, List.getElem?_eq_getElem hk]

/-- The decoder answers exactly the well-formed instruction whose encoding stands at the offset, with its
length (spec R141, R150). -/
theorem decodeBytes_ok_iff {bytes : List Byte} {offset n : Nat} {i : Instr} :
    decodeBytes bytes offset = .ok (i, n) ↔
      i.WellFormed ∧ n = i.length ∧ (bytes.drop offset).take n = encode i := by
  constructor
  · intro h
    obtain ⟨hwf, rfl, hfetch⟩ := decodeWith_ok h
    refine ⟨hwf, rfl, ?_⟩
    rw [← encode_length]
    exact streamByte_part_iff.mp hfetch
  · rintro ⟨hwf, rfl, hbytes⟩
    rw [← encode_length] at hbytes
    exact decodeWith_encode i hwf (streamByte_part_iff.mpr hbytes)

/-- Settles O1, by `decodeBytes_ok_iff`. -/
theorem decodeOfEncode : Obligations.DecodeOfEncode := by
  unfold Obligations.DecodeOfEncode
  intro i hwf before after
  rw [decodeBytes_ok_iff]
  exact ⟨hwf, encode_length i, by simp⟩

/-- Settles O2, by `decodeBytes_ok_iff`. -/
theorem decoderAcceptsOnlyEncodings : Obligations.DecoderAcceptsOnlyEncodings := by
  unfold Obligations.DecoderAcceptsOnlyEncodings
  intro bytes offset n i h
  exact decodeBytes_ok_iff.mp h

/-- Settles O13: each sequence is the encoding of its instruction. -/
theorem writtenWordsDecode : Obligations.WrittenWordsDecode := by
  unfold Obligations.WrittenWordsDecode
  simp only [decodeBytes_ok_iff]
  decide

/-! ## The forms of typed instructions -/

theorem toNat_truncateImmediate (v : Int) : ((truncateImmediate v).toNat : Int) = v % 65536 := by
  rw [truncateImmediate, BitVec.toNat_ofInt]
  omega

theorem truncateImmediate_toNat (n : Word) : truncateImmediate n.toNat = n := by
  rw [truncateImmediate, BitVec.ofInt_natCast, BitVec.ofNat_toNat, BitVec.setWidth_eq]

/-- What a source operand keeps through encoding: the low 16 bits of an immediate (spec R157), and all of
any other operand. -/
def TypedOperand.truncated : TypedOperand → TypedOperand
  | .immediate v => .immediate (v % 65536)
  | x => x

/-- A typed instruction with the immediate that is encoded (spec R150, R157). -/
def TypedInstr.truncated (t : TypedInstr) : TypedInstr := { t with src := t.src.truncated }

theorem TypedInstr.truncated_of_fits {t : TypedInstr} (h : t.ImmediateFits) : t.truncated = t := by
  obtain ⟨op, dst, src⟩ := t
  cases src with
  | immediate v =>
    obtain ⟨hlow, hhigh⟩ := h v rfl
    simp only [truncated, TypedOperand.truncated, Int.emod_eq_of_lt hlow hhigh]
  | register | memory | none => rfl

theorem TypedInstr.truncated_of_immediate {t : TypedInstr} {v : Int} (h : t.src = .immediate v) :
    t.truncated = { t with src := .immediate (v % 65536) } := by
  rw [truncated, h]
  rfl

/-- A decoded instruction has an immediate of 16 bits. -/
theorem Instr.typed_truncated (i : Instr) : i.typed.truncated = i.typed := by
  apply TypedInstr.truncated_of_fits
  intro v hv
  cases i with
  | movRI d n | addAI n | addRI d n =>
    cases hv
    have := n.isLt
    omega
  | movRR | movRM | movMR | addRR | addRM | addMR | hlt => cases hv

/-- The form of the typed instruction that a well-formed instruction decodes to is that instruction. -/
theorem Instr.typed_form {i : Instr} (h : i.WellFormed) : i.typed.form = .ok i := by
  cases i with
  | movRI d n => exact congrArg (fun n => Except.ok (Instr.movRI d n)) (truncateImmediate_toNat n)
  | addAI n => exact congrArg (fun n => Except.ok (Instr.addAI n)) (truncateImmediate_toNat n)
  | addRI d n =>
    have hd : d ≠ .ax := by simpa [WellFormed, wellFormed] using h
    simp [typed, TypedInstr.form, addForm, hd, truncateImmediate_toNat]
  | movRR | movRM | movMR | addRR | addRM | addMR | hlt => rfl

theorem movForm_ok {dst src : TypedOperand} {i : Instr} (h : movForm dst src = .ok i) :
    i.WellFormed ∧ i.typed = ⟨"MOV", dst, src.truncated⟩ := by
  unfold movForm at h
  split at h <;> cases h <;>
    simp [Instr.WellFormed, Instr.wellFormed, Instr.typed, TypedOperand.truncated, toNat_truncateImmediate]

theorem addForm_ok {dst src : TypedOperand} {i : Instr} (h : addForm dst src = .ok i) :
    i.WellFormed ∧ i.typed = ⟨"ADD", dst, src.truncated⟩ := by
  unfold addForm at h
  split at h
  · rename_i d v
    by_cases hd : d = .ax
    all_goals
      simp only [hd, if_true, if_false] at h
      cases h
      simp [Instr.WellFormed, Instr.wellFormed, Instr.typed, TypedOperand.truncated,
        toNat_truncateImmediate, hd]
  all_goals
    cases h <;> exact ⟨rfl, rfl⟩

theorem hltForm_ok {dst src : TypedOperand} {i : Instr} (h : hltForm dst src = .ok i) :
    i.WellFormed ∧ i.typed = ⟨"HLT", dst, src.truncated⟩ := by
  unfold hltForm at h
  split at h <;> cases h
  exact ⟨rfl, rfl⟩

/-- The form of a typed instruction is well-formed and decodes to that instruction, its immediate truncated
(spec R150, R152). -/
theorem TypedInstr.form_ok {t : TypedInstr} {i : Instr} (h : t.form = .ok i) :
    i.WellFormed ∧ i.typed = t.truncated := by
  obtain ⟨op, dst, src⟩ := t
  simp only [form] at h
  split at h
  · subst op; exact movForm_ok h
  split at h
  · subst op; exact addForm_ok h
  split at h
  · subst op; exact hltForm_ok h
  · cases h

theorem encode1_ok_iff {t : TypedInstr} {bytes : List Byte} :
    encode1 t = .ok bytes ↔ ∃ i, t.form = .ok i ∧ bytes = encode i := by
  unfold encode1
  cases t.form with
  | error e => simp [Bind.bind, Except.bind]
  | ok i => simp [Bind.bind, Except.bind, pure, Except.pure, eq_comm]

theorem decodeTyped_ok_iff {bytes : List Byte} {offset n : Nat} {t : TypedInstr} :
    decodeTyped bytes offset = .ok (t, n) ↔
      ∃ i, decodeBytes bytes offset = .ok (i, n) ∧ t = i.typed := by
  unfold decodeTyped
  cases decodeBytes bytes offset with
  | error e => simp [Bind.bind, Except.bind]
  | ok decoded =>
    obtain ⟨i, m⟩ := decoded
    simp [Bind.bind, Except.bind, pure, Except.pure]
    tauto

/-- Decoding what `encode1` answers gives the instruction back, its immediate truncated. -/
theorem decodeTyped_of_encode1 {t : TypedInstr} {bytes : List Byte} (h : encode1 t = .ok bytes) :
    decodeTyped bytes 0 = .ok (t.truncated, bytes.length) := by
  obtain ⟨i, hform, rfl⟩ := encode1_ok_iff.mp h
  obtain ⟨hwf, htyped⟩ := TypedInstr.form_ok hform
  have hdecode : decodeBytes (encode i) 0 = .ok (i, (encode i).length) :=
    decodeBytes_ok_iff.mpr ⟨hwf, encode_length i, by simp⟩
  exact decodeTyped_ok_iff.mpr ⟨i, hdecode, htyped.symm⟩

/-- Encoding what a byte sequence decodes to gives the bytes decoded. -/
theorem encode1_of_decodeTyped {t : TypedInstr} {bytes : List Byte} {n : Nat}
    (h : decodeTyped bytes 0 = .ok (t, n)) : encode1 t = .ok (bytes.take n) := by
  obtain ⟨i, hdecode, rfl⟩ := decodeTyped_ok_iff.mp h
  obtain ⟨hwf, _, hbytes⟩ := decodeBytes_ok_iff.mp hdecode
  exact encode1_ok_iff.mpr ⟨i, i.typed_form hwf, hbytes⟩

/-- Settles O3: the two directions of the round trip, the first with an immediate that truncation leaves or
changes. -/
theorem typedRoundTrip : Obligations.TypedRoundTrip := by
  unfold Obligations.TypedRoundTrip
  refine ⟨fun t bytes h hfits => ?_, fun t bytes n h => encode1_of_decodeTyped h,
    fun t bytes v h hv _ => ?_⟩
  · rw [decodeTyped_of_encode1 h, TypedInstr.truncated_of_fits hfits]
  · rw [decodeTyped_of_encode1 h, TypedInstr.truncated_of_immediate hv]

/-! ## The bytes by the table's arithmetic -/

theorem movImmediateOpcode_eq (r : BitVec 3) :
    movImmediateOpcode r = BitVec.ofNat 8 (0xB8 + r.toNat) := by revert r; decide

/-- The ModRM byte of a register-direct form (spec R152). -/
theorem modrm_direct_eq (reg rm : BitVec 3) :
    modrm 0b11#2 reg rm = BitVec.ofNat 8 (0xC0 + 8 * reg.toNat + rm.toNat) := by revert reg rm; decide

/-- The ModRM byte of a direct memory form (spec R152). -/
theorem modrm_memory_eq (reg : BitVec 3) :
    modrm 0b00#2 reg 0b110#3 = BitVec.ofNat 8 (0x06 + 8 * reg.toNat) := by revert reg; decide

theorem lo8_eq (v : Word) : lo8 v = BitVec.ofInt 8 ((v.toNat : Int) % 256) := by
  apply BitVec.eq_of_toNat_eq
  simp [lo8]
  omega

theorem hi8_eq (v : Word) : hi8 v = BitVec.ofInt 8 ((v.toNat : Int) / 256 % 256) := by
  apply BitVec.eq_of_toNat_eq
  simp [hi8, Nat.shiftRight_eq_div_pow]
  omega

theorem lo8_truncateImmediate (v : Int) :
    lo8 (truncateImmediate v) = BitVec.ofInt 8 (v % 65536 % 256) := by
  rw [lo8_eq, toNat_truncateImmediate]

theorem hi8_truncateImmediate (v : Int) :
    hi8 (truncateImmediate v) = BitVec.ofInt 8 (v % 65536 / 256 % 256) := by
  rw [hi8_eq, toNat_truncateImmediate]

theorem encodeDirect_eq (op : Byte) (reg rm : Reg) : encodeDirect op reg rm =
    [op, BitVec.ofNat 8 (0xC0 + 8 * reg.number.toNat + rm.number.toNat)] := by
  rw [encodeDirect, modrm_direct_eq]

theorem encodeMemory_eq (op : Byte) (reg : Reg) (a : Word) : encodeMemory op reg a =
    [op, BitVec.ofNat 8 (0x06 + 8 * reg.number.toNat), BitVec.ofInt 8 ((a.toNat : Int) % 256),
      BitVec.ofInt 8 ((a.toNat : Int) / 256 % 256)] := by
  rw [encodeMemory, modrm_memory_eq, lo8_eq, hi8_eq]

theorem encode1_of_form {t : TypedInstr} {i : Instr} (h : t.form = .ok i) :
    encode1 t = .ok (encode i) := encode1_ok_iff.mpr ⟨i, h, rfl⟩

/-- The form of `ADD r16, imm` for the register numbered 0 and for the others (spec R156). -/
theorem form_add_immediate (d : Reg) (v : Int) :
    TypedInstr.form ⟨"ADD", .register d, .immediate v⟩ =
      .ok (if d = .ax then .addAI (truncateImmediate v) else .addRI d (truncateImmediate v)) := rfl

/-- Settles O4: each row is the encoding of its form, with the bytes by the lemmas above. -/
theorem encodingTable : Obligations.EncodingTable := by
  unfold Obligations.EncodingTable
  intro low high id
  refine ⟨fun d n => ?_, fun d s => ?_, fun d a => ?_, fun a s => ?_, fun d s => ?_, fun d a => ?_,
    fun a s => ?_, fun n => ?_, fun d n hd => ?_, rfl⟩
  · rw [encode1_of_form rfl, encode, movImmediateOpcode_eq, lo8_truncateImmediate, hi8_truncateImmediate]
  · rw [encode1_of_form rfl, encode, encodeDirect_eq]
  · rw [encode1_of_form rfl, encode, encodeMemory_eq]
  · rw [encode1_of_form rfl, encode, encodeMemory_eq]
  · rw [encode1_of_form rfl, encode, encodeDirect_eq]
  · rw [encode1_of_form rfl, encode, encodeMemory_eq]
  · rw [encode1_of_form rfl, encode, encodeMemory_eq]
  · rw [encode1_of_form (form_add_immediate .ax n), if_pos rfl, encode,
      lo8_truncateImmediate, hi8_truncateImmediate]
  · have hax : d ≠ .ax := by rintro rfl; exact hd rfl
    rw [encode1_of_form (form_add_immediate d n), if_neg hax, encode, modrm_direct_eq,
      lo8_truncateImmediate, hi8_truncateImmediate]
    rfl

/-! ## What has no encoding -/

/-- The opcode and operand types of the rows of spec R152. -/
def encodingRows : List (String × OperandType × OperandType) :=
  [("MOV", .register, .immediate), ("MOV", .register, .register), ("MOV", .register, .memory),
   ("MOV", .memory, .register), ("ADD", .register, .register), ("ADD", .register, .memory),
   ("ADD", .memory, .register), ("ADD", .register, .immediate), ("HLT", .none, .none)]

@[simp] theorem TypedOperand.type_eq_register {x : TypedOperand} :
    x.type = .register ↔ ∃ r, x = .register r := by cases x <;> simp [type]

@[simp] theorem TypedOperand.type_eq_memory {x : TypedOperand} :
    x.type = .memory ↔ ∃ a, x = .memory a := by cases x <;> simp [type]

@[simp] theorem TypedOperand.type_eq_immediate {x : TypedOperand} :
    x.type = .immediate ↔ ∃ v, x = .immediate v := by cases x <;> simp [type]

@[simp] theorem TypedOperand.type_eq_none {x : TypedOperand} :
    x.type = .none ↔ x = .none := by cases x <;> simp [type]

@[simp] theorem TypedOperand.type_truncated (x : TypedOperand) : x.truncated.type = x.type := by
  cases x <;> rfl

/-- Every row has a form. -/
theorem TypedInstr.form_of_row {t : TypedInstr}
    (h : (t.opcode, t.dst.type, t.src.type) ∈ encodingRows) : ∃ i, t.form = .ok i := by
  obtain ⟨op, dst, src⟩ := t
  simp only [encodingRows, List.mem_cons, List.not_mem_nil, or_false, Prod.mk.injEq,
    TypedOperand.type_eq_register, TypedOperand.type_eq_memory, TypedOperand.type_eq_immediate,
    TypedOperand.type_eq_none] at h
  rcases h with ⟨rfl, ⟨_, rfl⟩, _, rfl⟩ | ⟨rfl, ⟨_, rfl⟩, _, rfl⟩ | ⟨rfl, ⟨_, rfl⟩, _, rfl⟩ |
    ⟨rfl, ⟨_, rfl⟩, _, rfl⟩ | ⟨rfl, ⟨_, rfl⟩, _, rfl⟩ | ⟨rfl, ⟨_, rfl⟩, _, rfl⟩ |
    ⟨rfl, ⟨_, rfl⟩, _, rfl⟩ | ⟨rfl, ⟨_, rfl⟩, _, rfl⟩ | ⟨rfl, rfl, rfl⟩
  all_goals exact ⟨_, rfl⟩

theorem Instr.typed_row (i : Instr) :
    (i.typed.opcode, i.typed.dst.type, i.typed.src.type) ∈ encodingRows := by
  cases i <;> simp [typed, TypedOperand.type, encodingRows]

/-- A form is that of a row: truncating the immediate leaves the types. -/
theorem TypedInstr.row_of_form {t : TypedInstr} {i : Instr} (h : t.form = .ok i) :
    (t.opcode, t.dst.type, t.src.type) ∈ encodingRows := by
  have hrow := i.typed_row
  rw [(form_ok h).2] at hrow
  simpa only [truncated, TypedOperand.type_truncated] using hrow

/-- An opcode string other than the three is unknown to the encoder (spec R153). -/
theorem TypedInstr.form_of_unknown {t : TypedInstr} (h : t.opcode ∉ ["MOV", "ADD", "HLT"]) :
    t.form = .error (.unknownOpcode t.opcode) := by
  simp only [List.mem_cons, List.not_mem_nil, or_false, not_or] at h
  obtain ⟨hmov, hadd, hhlt⟩ := h
  rw [form, if_neg hmov, if_neg hadd, if_neg hhlt]

/-- The one error of an instruction whose opcode is known (spec R154). -/
theorem TypedInstr.form_error_of_known {t : TypedInstr} {e : EncodeError}
    (hop : t.opcode ∈ ["MOV", "ADD", "HLT"]) (h : t.form = .error e) : e = .unsupportedEncoding := by
  obtain ⟨op, dst, src⟩ := t
  simp only [List.mem_cons, List.not_mem_nil, or_false] at hop
  rcases hop with rfl | rfl | rfl
  · change movForm dst src = _ at h
    unfold movForm at h
    split at h <;> cases h
    rfl
  · change addForm dst src = _ at h
    unfold addForm at h
    split at h <;> cases h
    rfl
  · change hltForm dst src = _ at h
    unfold hltForm at h
    split at h <;> cases h
    rfl

theorem encode1_of_form_error {t : TypedInstr} {e : EncodeError} (h : t.form = .error e) :
    encode1 t = .error e := by
  unfold encode1
  rw [h]
  rfl

/-- Settles O5: a known opcode has a form exactly in its rows, and one error where it has none. -/
theorem encoderRefusesAllOtherOperands : Obligations.EncoderRefusesAllOtherOperands := by
  unfold Obligations.EncoderRefusesAllOtherOperands
  intro rows t
  refine ⟨fun hop => encode1_of_form_error (TypedInstr.form_of_unknown hop), fun hop hrow => ?_,
    fun hrow => ?_⟩
  · cases hform : t.form with
    | ok i => exact absurd (TypedInstr.row_of_form hform) hrow
    | error e =>
      obtain rfl := TypedInstr.form_error_of_known hop hform
      exact encode1_of_form_error hform
  · obtain ⟨i, hform⟩ := TypedInstr.form_of_row hrow
    exact ⟨_, encode1_of_form hform⟩

/-! ## Programs -/

theorem encodeFrom_cons_of_ok {t : TypedInstr} {bytes : List Byte} (h : encode1 t = .ok bytes) (k : Nat)
    (rest : List TypedInstr) :
    encodeFrom k (t :: rest) = (encodeFrom (k + 1) rest).map (bytes ++ ·) := by
  simp only [encodeFrom, h]
  cases encodeFrom (k + 1) rest <;> rfl

theorem encodeFrom_cons_of_error {t : TypedInstr} {e : EncodeError} (h : encode1 t = .error e) (k : Nat)
    (rest : List TypedInstr) : encodeFrom k (t :: rest) = .error (e.atIndex k) := by
  simp only [encodeFrom, h]

theorem encodeFrom_eq_flatten {program : List TypedInstr} {parts : List (List Byte)}
    (h : program.map encode1 = parts.map .ok) (k : Nat) : encodeFrom k program = .ok parts.flatten := by
  induction program generalizing parts k with
  | nil =>
    obtain rfl : parts = [] := List.map_eq_nil_iff.mp h.symm
    rfl
  | cons t rest ih =>
    cases parts with
    | nil => cases h
    | cons bytes more =>
      obtain ⟨hhead, htail⟩ := List.cons.inj h
      rw [encodeFrom_cons_of_ok hhead, ih htail]
      rfl

/-- The first instruction that `encode1` refuses is reported, with the number of those before it. -/
theorem encodeFrom_first_error {before after : List TypedInstr} {t : TypedInstr} {e : EncodeError}
    (hbefore : ∀ u ∈ before, ∃ bytes, encode1 u = .ok bytes) (h : encode1 t = .error e) (k : Nat) :
    encodeFrom k (before ++ t :: after) = .error (e.atIndex (k + before.length)) := by
  induction before generalizing k with
  | nil => exact encodeFrom_cons_of_error h k after
  | cons u rest ih =>
    obtain ⟨⟨bytes, hu⟩, hrest⟩ := List.forall_mem_cons.mp hbefore
    rw [List.cons_append, encodeFrom_cons_of_ok hu, ih hrest, List.length_cons, Nat.add_right_comm,
      Nat.add_assoc]
    rfl

/-- Settles O6, by `encodeFrom_eq_flatten` and `encodeFrom_first_error`. -/
theorem programEncodingConcatenates : Obligations.ProgramEncodingConcatenates := by
  unfold Obligations.ProgramEncodingConcatenates
  refine ⟨fun program parts h => encodeFrom_eq_flatten h 0, fun before after t e hbefore h => ?_⟩
  rw [encodeProgram, encodeFrom_first_error hbefore h, Nat.zero_add]

/-! ## The two immediate forms of ADD -/

theorem mod_65536_eq_bytes (v : Int) : v % 65536 =
    (lo8 (truncateImmediate v)).toNat + 256 * (hi8 (truncateImmediate v)).toNat := by
  rw [← toNat_truncateImmediate]
  simp [lo8, hi8, Nat.shiftRight_eq_div_pow]
  omega

/-- Settles O7: the bytes that `encode1` answers are read off the form of `form_add_immediate`, and what
decodes to the instruction is what `encode1` answers, by the round trip. -/
theorem addImmediateHasOneEncoding : Obligations.AddImmediateHasOneEncoding := by
  unfold Obligations.AddImmediateHasOneEncoding
  intro short long
  have encoded : ∀ (d : Reg) (v : Int) (bytes : List Byte),
      encode1 ⟨"ADD", .register d, .immediate v⟩ = .ok bytes →
        if d = .ax then short v bytes else long d v bytes := by
    intro d v bytes h
    rw [encode1_of_form (form_add_immediate d v)] at h
    by_cases hax : d = .ax
    · rw [if_pos hax] at h ⊢
      cases h
      exact ⟨_, _, rfl, mod_65536_eq_bytes v⟩
    · rw [if_neg hax] at h ⊢
      cases h
      exact ⟨_, _, _, rfl, modrmMode_modrm .., modrmReg_modrm .., modrmRm_modrm ..,
        mod_65536_eq_bytes v⟩
  exact ⟨encoded, fun bytes d v n h => encoded d v _ (encode1_of_decodeTyped h)⟩

/-! ## Illegal bytes -/

theorem not_other_of_hasModRM {op : Byte} (h : hasModRM op = true) :
    op.extractLsb' 3 5 ≠ 0b10111#5 ∧ op ≠ 0x05#8 ∧ op ≠ 0xF4#8 := by
  revert op; decide

/-- After a ModRM opcode the decoder goes on with the ModRM byte (spec R140). -/
theorem decodeWith_of_hasModRM {fetch : Nat → Except RunError Byte} {op : Byte}
    (h0 : fetch 0 = .ok op) (hop : hasModRM op = true) : decodeWith fetch = decodeModRM fetch op := by
  obtain ⟨hmov, hadd, hhlt⟩ := not_other_of_hasModRM hop
  simp [decodeWith, h0, hmov, hadd, hhlt, hop, Bind.bind, Except.bind]

/-- An illegal ModRM byte raises before any later byte is fetched (spec R122). -/
theorem decodeModRM_of_illegal {fetch : Nat → Except RunError Byte} {op m : Byte}
    (h1 : fetch 1 = .ok m) (hm : legalModRM op m = false) :
    decodeModRM fetch op = .error (.unknownOpcode op (some m)) := by
  simp [decodeModRM, h1, hm, Bind.bind, Except.bind]

/-- After a legal ModRM byte the decoder answers as soon as the field that may follow is there. -/
theorem decodeModRM_of_legal {fetch : Nat → Except RunError Byte} {op m : Byte} {v : Word}
    (h1 : fetch 1 = .ok m) (hm : legalModRM op m = true) (hv : fetchField fetch 2 = .ok v) :
    ∃ i n, decodeModRM fetch op = .ok (i, n) := by
  simp only [decodeModRM, h1, hm, hv, Bool.true_eq_false, if_false, Bind.bind, Except.bind,
    pure, Except.pure]
  split_ifs <;> exact ⟨_, _, rfl⟩

theorem hasModRM_iff {op : Byte} :
    hasModRM op = true ↔ op ∈ [0x8B#8, 0x03#8, 0x89#8, 0x01#8, 0x81#8] := by
  simp [hasModRM, or_assoc]

/-- Settles O10: the decoder fetches the two bytes that are there and raises. -/
theorem illegalModRMByteIsUnknownOpcode : Obligations.IllegalModRMByteIsUnknownOpcode := by
  unfold Obligations.IllegalModRMByteIsUnknownOpcode
  intro op m rest hop hm
  rw [decodeBytes, decodeWith_of_hasModRM rfl (hasModRM_iff.mpr hop), decodeModRM_of_illegal rfl hm]

/-- The legal ModRM bytes as spec R121 lists them. -/
theorem legalModRM_iff_listed {op m : Byte} (hop : op ∈ [0x8B#8, 0x03#8, 0x89#8, 0x01#8, 0x81#8]) :
    legalModRM op m = true ↔
      let direct : List Byte := [0x06#8, 0x0E#8, 0x16#8, 0x1E#8, 0x26#8, 0x2E#8, 0x36#8, 0x3E#8]
      ((op = 0x8B#8 ∨ op = 0x03#8) ∧ (0xC0 ≤ m.toNat ∨ m ∈ direct)) ∨
      ((op = 0x89#8 ∨ op = 0x01#8) ∧ m ∈ direct) ∨
      (op = 0x81#8 ∧ 0xC1 ≤ m.toNat ∧ m.toNat ≤ 0xC7) := by
  simp only [List.mem_cons, List.not_mem_nil, or_false] at hop
  rcases hop with rfl | rfl | rfl | rfl | rfl <;> revert m <;> decide

/-- Settles O9: a ModRM byte begins a decodable sequence exactly where it is legal, two more bytes being
enough. -/
theorem legalModRMBytes : Obligations.LegalModRMBytes := by
  unfold Obligations.LegalModRMBytes
  intro direct op m hop
  rw [← legalModRM_iff_listed hop]
  have hdecode : ∀ rest, decodeBytes (op :: m :: rest) 0 =
      decodeModRM (fun k => streamByte (op :: m :: rest) (0 + k)) op :=
    fun rest => decodeWith_of_hasModRM rfl (hasModRM_iff.mpr hop)
  constructor
  · rintro ⟨rest, i, n, h⟩
    by_contra hm
    rw [hdecode, decodeModRM_of_illegal rfl (Bool.eq_false_iff.mpr hm)] at h
    cases h
  · intro hm
    refine ⟨[0x00#8, 0x00#8], ?_⟩
    rw [hdecode]
    exact decodeModRM_of_legal rfl hm rfl

/-- The legal first bytes as spec R111 lists them. -/
theorem legalOpcode_iff_listed (op : Byte) : legalOpcode op = true ↔
    op ∈ [0xB8#8, 0xB9#8, 0xBA#8, 0xBB#8, 0xBC#8, 0xBD#8, 0xBE#8, 0xBF#8,
      0x8B#8, 0x89#8, 0x03#8, 0x01#8, 0x05#8, 0x81#8, 0xF4#8] := by
  revert op; decide

/-- A first byte that is not legal raises before any other is fetched (spec R120). -/
theorem decodeWith_of_illegal {fetch : Nat → Except RunError Byte} {op : Byte}
    (h0 : fetch 0 = .ok op) (hop : legalOpcode op = false) :
    decodeWith fetch = .error (.unknownOpcode op none) := by
  simp only [legalOpcode, Bool.or_eq_false_iff, beq_eq_false_iff_ne] at hop
  obtain ⟨⟨⟨hmov, hadd⟩, hhlt⟩, hmodrm⟩ := hop
  simp [decodeWith, h0, hmov, hadd, hhlt, hmodrm, Bind.bind, Except.bind]

end Sys2Proof

namespace Sys2Proof.Machine

/-! ## The step and the encoding at `ip` -/

/-- A step whose decoding raises changes nothing but the run state (spec R145, R310). -/
theorem step_of_decode_error {s : State} {e : RunError} (hs : s.run = .running)
    (h : s.decodeAt = .error e) : step s = .next (s.raise e) := by
  simp only [step, hs, h]

/-- Settles O8: the byte is not legal, so the decoder raises on it. -/
theorem illegalFirstByteIsUnknownOpcode : Obligations.IllegalFirstByteIsUnknownOpcode := by
  unfold Obligations.IllegalFirstByteIsUnknownOpcode
  intro s op hs hfetch hop
  rw [← legalOpcode_iff_listed, Bool.not_eq_true] at hop
  exact step_of_decode_error hs (decodeWith_of_illegal hfetch hop)

/-- No instruction answers a fault or a refusal. -/
theorem exec_next (i : Instr) (s : State) : ∃ t, exec i s = .next t := by
  rcases exec_cases i s with ⟨_, hexec⟩ | ⟨t, hexec, _⟩ <;> exact ⟨_, hexec⟩

/-- Settles O30: the step is `afterExec` of the instruction, which always answers. -/
theorem stepRunsDecodedInstruction : Obligations.StepRunsDecodedInstruction := by
  unfold Obligations.StepRunsDecodedInstruction
  intro s i n hs hdecode
  obtain ⟨hwf, hn, _⟩ := State.decodeAt_ok hdecode
  obtain ⟨t, hexec⟩ := exec_next i s
  refine ⟨hwf, hn, t, hexec, ?_⟩
  rw [step_of_decodeAt hs hdecode, hexec]
  exact (apply_ite Host.Outcome.next _ _ _).symm

/-- Settles O31: the decoder answers the instruction at `ip`, and the last line of spec R145 does not apply
to it. -/
theorem stepRunsEncodedInstruction : Obligations.StepRunsEncodedInstruction := by
  unfold Obligations.StepRunsEncodedInstruction
  intro s i hwf hs hbytes hend
  obtain ⟨t, hexec⟩ := exec_next i s
  rw [step_of_decodeAt hs (decodeWith_encode i hwf hbytes), hexec]
  refine if_neg ?_
  rintro ⟨hhlt, htop, _⟩
  exact hend.elim (· htop) hhlt

/-- Settles O24, by `runFor_ended`, which needs nothing of the invariant. -/
theorem everyStateRunsToAnEnd : Obligations.EveryStateRunsToAnEnd := by
  unfold Obligations.EveryStateRunsToAnEnd
  intro s _
  exact runFor_ended (Nat.lt_succ_self _)

end Sys2Proof.Machine
end

section
/-! The front end: what the Operand Typer accepts, the Validator's table and the order of the translation
stages. `typeOperand_empty`, `typeOperand_name`, `typeOperand_bracketed` and `typeOperand_plain` say what the
Typer does with the four shapes of text it reads. -/

namespace Sys2Proof

/-! ## Decimal texts -/

/-- The ASCII digits (spec R162). -/
def asciiDigits : List Char := ['0', '1', '2', '3', '4', '5', '6', '7', '8', '9']

theorem mem_asciiDigits_iff {c : Char} : c ∈ asciiDigits ↔ '0'.toNat ≤ c.toNat ∧ c.toNat ≤ '9'.toNat := by
  constructor
  · have hdigits : ∀ c ∈ asciiDigits, '0'.toNat ≤ c.toNat ∧ c.toNat ≤ '9'.toNat := by
      simp [asciiDigits]
    exact hdigits c
  · rintro ⟨hlow, hhigh⟩
    have hc : c = Char.ofNat c.toNat := (Char.ofNat_toNat c).symm
    rw [hc]
    generalize c.toNat = k at hlow hhigh
    change 48 ≤ k at hlow
    change k ≤ 57 at hhigh
    interval_cases k <;> decide

theorem digitValue_of_digit {c : Char} (h : c ∈ asciiDigits) :
    digitValue c = some (c.toNat - '0'.toNat) := if_pos (mem_asciiDigits_iff.mp h)

theorem digitValue_of_other {c : Char} (h : c ∉ asciiDigits) : digitValue c = none :=
  if_neg fun hbounds => h (mem_asciiDigits_iff.mpr hbounds)

/-- A text has a value exactly where each of its characters is a digit. -/
theorem digitsValue_eq_some_iff {acc v : Nat} {text : List Char} : digitsValue acc text = some v ↔
    (∀ c ∈ text, c ∈ asciiDigits) ∧
      text.foldl (fun acc c => acc * 10 + (c.toNat - '0'.toNat)) acc = v := by
  induction text generalizing acc with
  | nil => simp [digitsValue]
  | cons c rest ih =>
    by_cases hc : c ∈ asciiDigits
    · simp [digitsValue, digitValue_of_digit hc, ih, hc]
    · simp [digitsValue, digitValue_of_other hc, hc]

theorem decimalValue_eq_some_iff {text : List Char} {v : Nat} :
    decimalValue text = some v ↔ IsDecimal text ∧ decimalNumber text = v := by
  cases text with
  | nil => simp [decimalValue, IsDecimal]
  | cons c rest =>
    rw [decimalValue, digitsValue_eq_some_iff]
    simp [IsDecimal, decimalNumber, asciiDigits]

theorem bracketInterior_eq_some_iff {text ds : List Char} :
    bracketInterior text = some ds ↔ text = '[' :: ds ++ [']'] := by
  unfold bracketInterior
  split
  · rename_i rest
    rw [List.cons_append, List.cons.injEq]
    simp only [true_and]
    constructor
    · intro h
      split at h
      · rename_i hlast
        cases h
        exact (List.dropLast_append_getLast? ']' hlast).symm
      · cases h
    · rintro rfl
      simp
  · rename_i hother
    simp only [reduceCtorEq, false_iff]
    rintro rfl
    exact hother _ rfl

/-! ## The Operand Typer -/

/-- A name is the name of a register only if it is that register's (spec R161). -/
theorem Reg.ofName_eq_some_iff {s : String} {r : Reg} : Reg.ofName s = some r ↔ s = r.name := by
  constructor
  · intro h
    exact (beq_iff_eq.mp (List.find?_some (p := fun r : Reg => r.name == s) h)).symm
  · rintro rfl
    exact r.ofName_name

/-- A register name begins with a letter. -/
theorem Reg.not_digit_or_bracket_of_name {r : Reg} {c : Char} {rest : List Char}
    (h : r.name.toList = c :: rest) : c ≠ '[' ∧ c ∉ asciiDigits := by
  cases r <;> (cases h; decide)

theorem Reg.ofName_eq_none {s : String} {c : Char} {rest : List Char} (hs : s.toList = c :: rest)
    (hc : c = '[' ∨ c ∈ asciiDigits) : Reg.ofName s = none := by
  cases hr : Reg.ofName s with
  | none => rfl
  | some r =>
    rw [Reg.ofName_eq_some_iff.mp hr] at hs
    obtain ⟨hbracket, hdigit⟩ := Reg.not_digit_or_bracket_of_name hs
    exact absurd hc (not_or.mpr ⟨hbracket, hdigit⟩)

theorem typeOperand_empty : typeOperand "" = some .none := rfl

theorem typeOperand_name (r : Reg) : typeOperand r.name = some (.register r) := by
  cases r <;> rfl

/-- Past the register names, a text in brackets is an address or nothing (spec R163). -/
theorem typeOperand_bracketed {s : String} {ds : List Char} (hs : s.toList = '[' :: ds ++ [']']) :
    typeOperand s = (decimalValue ds).bind fun v =>
      if v < 65536 then some (.memory (BitVec.ofNat 16 v)) else none := by
  have hne : s ≠ "" := by rintro rfl; cases hs
  rw [typeOperand, if_neg hne, Reg.ofName_eq_none hs (.inl rfl)]
  simp only [bracketInterior_eq_some_iff.mpr hs]
  cases decimalValue ds <;> rfl

/-- Any other text is an immediate or nothing (spec R162). -/
theorem typeOperand_plain {s : String} (hne : s ≠ "") (hname : Reg.ofName s = none)
    (hs : bracketInterior s.toList = none) :
    typeOperand s = (decimalValue s.toList).bind fun v =>
      if v ≤ 2147483647 then some (.immediate v) else none := by
  rw [typeOperand, if_neg hne, hname]
  simp only [hs]
  cases decimalValue s.toList <;> rfl

/-- A bracketed decimal text is typed exactly if its number is an address (spec R163). -/
theorem typeOperand_bracketed_eq_some_iff {s : String} {ds : List Char} {x : TypedOperand}
    (hs : s.toList = '[' :: ds ++ [']']) : typeOperand s = some x ↔
      IsDecimal ds ∧ decimalNumber ds ≤ 65535 ∧ x = .memory (BitVec.ofNat 16 (decimalNumber ds)) := by
  rw [typeOperand_bracketed hs, Option.bind_eq_some_iff]
  simp only [decimalValue_eq_some_iff, Option.ite_none_right_eq_some, Option.some.injEq]
  constructor
  · rintro ⟨_, ⟨hds, rfl⟩, hlt, rfl⟩
    exact ⟨hds, Nat.le_of_lt_succ hlt, rfl⟩
  · rintro ⟨hds, hle, rfl⟩
    exact ⟨_, ⟨hds, rfl⟩, Nat.lt_succ_of_le hle, rfl⟩

/-- A text of another shape is typed exactly if it is a decimal that fits an i32 (spec R162). -/
theorem typeOperand_plain_eq_some_iff {s : String} {x : TypedOperand} (hne : s ≠ "")
    (hname : Reg.ofName s = none) (hs : bracketInterior s.toList = none) : typeOperand s = some x ↔
      IsDecimal s.toList ∧ decimalNumber s.toList ≤ 2147483647 ∧
        x = .immediate (decimalNumber s.toList) := by
  rw [typeOperand_plain hne hname hs, Option.bind_eq_some_iff]
  simp only [decimalValue_eq_some_iff, Option.ite_none_right_eq_some, Option.some.injEq]
  constructor
  · rintro ⟨_, ⟨hds, rfl⟩, hle, rfl⟩
    exact ⟨hds, hle, rfl⟩
  · rintro ⟨hds, hle, rfl⟩
    exact ⟨_, ⟨hds, rfl⟩, hle, rfl⟩

/-- A decimal text is none of the shapes read before it: it begins with a digit. -/
theorem IsDecimal.plain {s : String} (h : IsDecimal s.toList) :
    s ≠ "" ∧ Reg.ofName s = none ∧ bracketInterior s.toList = none := by
  obtain ⟨hne, hdigits⟩ := h
  obtain ⟨c, rest, hs⟩ := List.exists_cons_of_ne_nil hne
  have hc : c ∈ asciiDigits := hdigits c (by simp [hs])
  refine ⟨by rintro rfl; exact hne rfl, Reg.ofName_eq_none hs (.inr hc), ?_⟩
  cases hb : bracketInterior s.toList with
  | none => rfl
  | some ds =>
    rw [bracketInterior_eq_some_iff, hs] at hb
    cases hb
    exact absurd hc (by decide)

/-- Settles O15: the four shapes in the order the Typer tries them, each with what it accepts. -/
theorem typerAcceptsExactly : Obligations.TyperAcceptsExactly := by
  unfold Obligations.TyperAcceptsExactly
  intro s x
  constructor
  · intro h
    by_cases hne : s = ""
    · subst s
      cases h
      exact .inl ⟨rfl, rfl⟩
    cases hname : Reg.ofName s with
    | some r =>
      obtain rfl := Reg.ofName_eq_some_iff.mp hname
      rw [typeOperand_name] at h
      cases h
      exact .inr (.inl ⟨r, rfl, rfl⟩)
    | none =>
      cases hb : bracketInterior s.toList with
      | some ds =>
        have hs := bracketInterior_eq_some_iff.mp hb
        obtain ⟨hds, hle, hx⟩ := (typeOperand_bracketed_eq_some_iff hs).mp h
        exact .inr (.inr (.inl ⟨ds, hds, hle, hs, hx⟩))
      | none =>
        obtain ⟨hds, hle, hx⟩ := (typeOperand_plain_eq_some_iff hne hname hb).mp h
        exact .inr (.inr (.inr ⟨s.toList, hds, hle, rfl, hx⟩))
  · rintro (⟨rfl, rfl⟩ | ⟨r, rfl, rfl⟩ | ⟨ds, hds, hle, hs, rfl⟩ | ⟨_, hds, hle, rfl, rfl⟩)
    · exact typeOperand_empty
    · exact typeOperand_name r
    · exact (typeOperand_bracketed_eq_some_iff hs).mpr ⟨hds, hle, rfl⟩
    · obtain ⟨hne, hname, hb⟩ := hds.plain
      exact (typeOperand_plain_eq_some_iff hne hname hb).mpr ⟨hds, hle, rfl⟩

/-! ## Spelling -/

/-- The decimal spelling of a number is a decimal text that writes it. -/
theorem isDecimal_repr (n : Nat) : IsDecimal n.repr.toList := by
  rw [Nat.toList_repr]
  refine ⟨Nat.toDigits_ne_nil, fun c hc => mem_asciiDigits_iff.mpr ?_⟩
  have hdigit := Nat.isDigit_of_mem_toDigits (by decide) (by decide) hc
  simp only [Char.isDigit, Bool.and_eq_true, decide_eq_true_eq] at hdigit
  exact hdigit

theorem decimalNumber_repr (n : Nat) : decimalNumber n.repr.toList = n := by
  rw [Nat.toList_repr]
  have h := Nat.ofDigitChars_ten_toDigits (n := n)
  rw [Nat.ofDigitChars_eq_foldl] at h
  simpa only [decimalNumber, Nat.mul_comm] using h

/-- Settles O20, by what the Typer accepts. -/
theorem spellingIsTyped : Obligations.SpellingIsTyped := by
  unfold Obligations.SpellingIsTyped
  refine ⟨typeOperand_name, fun a => ?_, fun n hn => ?_⟩
  · have hs : (TypedOperand.memory a).spelling.toList = '[' :: a.toNat.repr.toList ++ [']'] := by
      simp [TypedOperand.spelling]
    have ha := a.isLt
    rw [typeOperand_bracketed_eq_some_iff hs, decimalNumber_repr, BitVec.ofNat_toNat, BitVec.setWidth_eq]
    exact ⟨isDecimal_repr _, by omega, rfl⟩
  · have hs : (TypedOperand.immediate n).spelling = n.repr := rfl
    obtain ⟨hne, hname, hb⟩ := (isDecimal_repr n).plain
    rw [hs, typeOperand_plain_eq_some_iff hne hname hb, decimalNumber_repr]
    exact ⟨isDecimal_repr n, hn, rfl⟩

/-! ## The Validator -/

theorem validateFrom_cons_of_legal {t : TypedInstr} (h : t.legal = true) (k : Nat)
    (rest : List TypedInstr) : validateFrom k (t :: rest) = validateFrom (k + 1) rest := if_pos h

theorem validateFrom_cons_of_illegal {t : TypedInstr} (h : t.legal = false) (k : Nat)
    (rest : List TypedInstr) : validateFrom k (t :: rest) = .error (.illegalOperandCombination k) :=
  if_neg (Bool.eq_false_iff.mp h)

/-- The Validator goes past legal instructions, counting them (spec R164). -/
theorem validateFrom_append_of_legal {before : List TypedInstr} (h : ∀ t ∈ before, t.legal = true)
    (k : Nat) (rest : List TypedInstr) :
    validateFrom k (before ++ rest) = validateFrom (k + before.length) rest := by
  induction before generalizing k with
  | nil => rfl
  | cons t more ih =>
    obtain ⟨ht, hmore⟩ := List.forall_mem_cons.mp h
    rw [List.cons_append, validateFrom_cons_of_legal ht, ih hmore, List.length_cons, Nat.add_right_comm,
      Nat.add_assoc]

theorem validate_of_legal {program : List TypedInstr} (h : ∀ t ∈ program, t.legal = true) :
    validate program = .ok () := by
  simpa [validate, validateFrom] using validateFrom_append_of_legal h 0 []

/-- Settles O18: the Validator goes past the legal instructions and stops at the first other. -/
theorem validatorReportsFirstViolation : Obligations.ValidatorReportsFirstViolation := by
  unfold Obligations.ValidatorReportsFirstViolation
  refine ⟨fun program h => validate_of_legal h, fun before after t hbefore ht => ?_⟩
  rw [validate, validateFrom_append_of_legal hbefore, validateFrom_cons_of_illegal ht, Nat.zero_add]

theorem validate_singleton_iff {t : TypedInstr} : validate [t] = .ok () ↔ t.legal = true := by
  constructor
  · intro h
    by_contra ht
    rw [validate, validateFrom_cons_of_illegal (Bool.eq_false_iff.mpr ht)] at h
    cases h
  · intro h
    exact validate_of_legal (List.forall_mem_singleton.mpr h)

theorem legalOperands_mov (dst src : OperandType) : legalOperands "MOV" dst src = false ↔
    (dst = .memory ∧ src = .memory) ∨ (dst = .memory ∧ src = .immediate) ∨ dst = .none ∨ src = .none := by
  cases dst <;> cases src <;> decide

theorem legalOperands_add (dst src : OperandType) : legalOperands "ADD" dst src = false ↔
    (dst = .memory ∧ src = .memory) ∨ dst = .none ∨ src = .none := by
  cases dst <;> cases src <;> decide

theorem legalOperands_hlt (dst src : OperandType) : legalOperands "HLT" dst src = false ↔
    ¬(dst = .none ∧ src = .none) := by
  cases dst <;> cases src <;> decide

/-- An opcode other than the three has no row in the table (spec R167). -/
theorem legalOperands_of_unknown {op : String} (hmov : op ≠ "MOV") (hadd : op ≠ "ADD") (hhlt : op ≠ "HLT")
    (dst src : OperandType) : legalOperands op dst src = true := by
  rw [legalOperands, if_neg hmov, if_neg hadd, if_neg hhlt]

/-- Settles O16: the table opcode by opcode. -/
theorem validatorTable : Obligations.ValidatorTable := by
  unfold Obligations.ValidatorTable
  rintro ⟨op, dst, src⟩
  refine ⟨?_, ?_, ?_, validate_singleton_iff⟩
  · rintro rfl; exact legalOperands_mov dst.type src.type
  · rintro rfl; exact legalOperands_add dst.type src.type
  · rintro rfl; exact legalOperands_hlt dst.type src.type

/-- Settles O17: the opcode has no row in the Validator's table and no form in the encoder. -/
theorem unknownOpcodePassesValidator : Obligations.UnknownOpcodePassesValidator := by
  unfold Obligations.UnknownOpcodePassesValidator
  intro t hmov hadd hhlt
  refine ⟨validate_singleton_iff.mpr (legalOperands_of_unknown hmov hadd hhlt _ _), ?_⟩
  exact encode1_of_form_error (TypedInstr.form_of_unknown (by simp [hmov, hadd, hhlt]))

/-! ## The order of the stages -/

theorem typeAt_of_some {s : String} {x : TypedOperand} (h : typeOperand s = some x) (k : Nat) :
    typeAt k s = .ok x := by simp only [typeAt, h]

theorem typeAt_of_none {s : String} (h : typeOperand s = none) (k : Nat) :
    typeAt k s = .error (.invalidOperand k s) := by simp only [typeAt, h]

theorem typeFrom_cons {t : Triple} {x y : TypedOperand} (hx : typeOperand t.operand1 = some x)
    (hy : typeOperand t.operand2 = some y) (k : Nat) (rest : List Triple) :
    typeFrom k (t :: rest) = (typeFrom (k + 1) rest).map (⟨t.opcode, x, y⟩ :: ·) := by
  rw [typeFrom, typeAt_of_some hx, typeAt_of_some hy]
  cases typeFrom (k + 1) rest <;> rfl

theorem typeFrom_cons_of_operand1 {t : Triple} (h : typeOperand t.operand1 = none) (k : Nat)
    (rest : List Triple) : typeFrom k (t :: rest) = .error (.invalidOperand k t.operand1) := by
  rw [typeFrom, typeAt_of_none h]
  rfl

theorem typeFrom_cons_of_operand2 {t : Triple} {x : TypedOperand} (hx : typeOperand t.operand1 = some x)
    (h : typeOperand t.operand2 = none) (k : Nat) (rest : List Triple) :
    typeFrom k (t :: rest) = .error (.invalidOperand k t.operand2) := by
  rw [typeFrom, typeAt_of_some hx, typeAt_of_none h]
  rfl

/-- An error of the Typer behind instructions whose operands all have types is the program's, counted from
them. -/
theorem typeFrom_append_of_error {before rest : List Triple} {e : TranslateError} {k : Nat}
    (hbefore : ∀ u ∈ before, typeOperand u.operand1 ≠ none ∧ typeOperand u.operand2 ≠ none)
    (h : typeFrom (k + before.length) rest = .error e) : typeFrom k (before ++ rest) = .error e := by
  induction before generalizing k with
  | nil => exact h
  | cons u more ih =>
    obtain ⟨⟨hu1, hu2⟩, hmore⟩ := List.forall_mem_cons.mp hbefore
    obtain ⟨x, hx⟩ := Option.ne_none_iff_exists'.mp hu1
    obtain ⟨y, hy⟩ := Option.ne_none_iff_exists'.mp hu2
    rw [List.length_cons, ← Nat.add_assoc, Nat.add_right_comm] at h
    rw [List.cons_append, typeFrom_cons hx hy, ih hmore h]
    rfl

/-- A program whose operands all have types is typed instruction by instruction. -/
theorem typeFrom_of_typed {program : List Triple} {typed : List TypedInstr}
    (h : program.map (fun t => (t.opcode, typeOperand t.operand1, typeOperand t.operand2)) =
      typed.map (fun t => (t.opcode, some t.dst, some t.src))) (k : Nat) :
    typeFrom k program = .ok typed := by
  induction program generalizing typed k with
  | nil =>
    obtain rfl : typed = [] := List.map_eq_nil_iff.mp h.symm
    rfl
  | cons t rest ih =>
    cases typed with
    | nil => cases h
    | cons u more =>
      obtain ⟨hhead, htail⟩ := List.cons.inj h
      obtain ⟨hop, hdst, hsrc⟩ : t.opcode = u.opcode ∧ typeOperand t.operand1 = some u.dst ∧
          typeOperand t.operand2 = some u.src := by simpa only [Prod.mk.injEq] using hhead
      rw [typeFrom_cons hdst hsrc, ih htail, hop]
      rfl

theorem translateProgram_of_type_error {program : List Triple} {e : TranslateError}
    (h : typeFrom 0 program = .error e) : translateProgram program = .error e := by
  rw [translateProgram, h]
  rfl

theorem translateProgram_of_typed {program : List Triple} {typed : List TypedInstr}
    (h : typeFrom 0 program = .ok typed) :
    translateProgram program = validate typed >>= fun _ => encodeProgram typed := by
  rw [translateProgram, h]
  rfl

/-- Settles O19: the Typer's error ends translation, and a typed program goes on to the Validator and the
encoder. -/
theorem translationStageOrder : Obligations.TranslationStageOrder := by
  unfold Obligations.TranslationStageOrder
  refine ⟨fun before after t hbefore => ⟨fun h => ?_, fun h1 h2 => ?_⟩, fun program typed h => ?_⟩
  · refine translateProgram_of_type_error (typeFrom_append_of_error hbefore ?_)
    rw [Nat.zero_add]
    exact typeFrom_cons_of_operand1 h before.length after
  · obtain ⟨x, hx⟩ := Option.ne_none_iff_exists'.mp h1
    refine translateProgram_of_type_error (typeFrom_append_of_error hbefore ?_)
    rw [Nat.zero_add]
    exact typeFrom_cons_of_operand2 hx h2 before.length after
  · rw [translateProgram_of_typed (typeFrom_of_typed h 0)]
    refine ⟨fun e he => ?_, fun hok => ?_⟩
    · rw [he]; rfl
    · rw [hok]; rfl

end Sys2Proof
end

section
/-! The four forms of MOV. Every form that writes a register leaves `(s.setReg d v).advance n`, and every form
that writes memory leaves a word written and `ip` advanced: `exec_setReg_result` and `exec_writeWord_result`
say once what is in either state and what is as it was. -/

namespace Sys2Proof.Machine

/-! ## The two shapes of completion -/

/-- The result and the frame of an instruction that writes the register `d` and moves past its `n` bytes. -/
theorem exec_setReg_result {i : Instr} {s : State} {d : Reg} {v : Word} {n : Nat}
    (hexec : exec i s = .next ((s.setReg d v).advance n)) :
    ∃ t, exec i s = .next t ∧ t.reg d = v ∧ SameRegsBut d s t ∧ SameMemory s t ∧ Advanced n s t :=
  ⟨_, hexec, s.reg_setReg_same d v, fun _ hr => s.reg_setReg_other v hr, fun _ => rfl, rfl, rfl, rfl⟩

/-- The result and the frame of an instruction that writes the word at `a` and moves past its `n` bytes. -/
theorem exec_writeWord_result {i : Instr} {s : State} {a v : Word} {n : Nat}
    (hexec : exec i s = .next (({ s with mem := s.mem.writeWord a v } : State).advance n)) :
    ∃ t, exec i s = .next t ∧ t.mem = s.mem.writeWord a v ∧
      SameMemoryBut a s t ∧ SameRegs s t ∧ Advanced n s t := by
  obtain ⟨-, -, -, -, hother, -⟩ := wordsAreLittleEndian s.mem a v
  exact ⟨_, hexec, rfl, hother, fun _ => rfl, rfl, rfl, rfl⟩

/-! ## The forms of MOV -/

theorem exec_movRI (d : Reg) (n : Word) (s : State) :
    exec (.movRI d n) s = .next ((s.setReg d n).advance 3) := rfl

theorem exec_movRR (d r : Reg) (s : State) :
    exec (.movRR d r) s = .next ((s.setReg d (s.reg r)).advance 2) := rfl

/-- `MOV r16, [a]` below the top of memory (spec R204). -/
theorem exec_movRM {a : Word} (ha : a ≠ 0xFFFF#16) (d : Reg) (s : State) :
    exec (.movRM d a) s = .next ((s.setReg d (s.mem.readWord a)).advance 4) := by
  simp [exec, execMovRM, ha, Bind.bind, Except.bind, pure, Except.pure]

/-- Settles O47: the register is written with the immediate. -/
theorem movImmediateResult : Obligations.MovImmediateResult := by
  unfold Obligations.MovImmediateResult
  intro s d n
  exact exec_setReg_result (exec_movRI d n s)

/-- Settles O48: the register is written with the source's old value, which a move to itself writes back. -/
theorem movRegisterResult : Obligations.MovRegisterResult := by
  unfold Obligations.MovRegisterResult
  intro s d r
  exact exec_setReg_result (exec_movRR d r s)

/-- Settles O49: the register is written with the word at the address, which is its two bytes joined, the low
one first in memory (spec R61). -/
theorem movLoadResult : Obligations.MovLoadResult := by
  unfold Obligations.MovLoadResult
  intro s d a ha
  exact exec_setReg_result (exec_movRM ha d s)

/-- Settles O50: the word at the address is written with the register, and its bytes are read back by
`wordsAreLittleEndian`. -/
theorem movStoreResult : Obligations.MovStoreResult := by
  unfold Obligations.MovStoreResult
  intro s a r ha
  obtain ⟨t, hexec, hmem, hframe⟩ := exec_writeWord_result (exec_movMR ha r s)
  obtain ⟨-, -, hlow, hhigh, -, -⟩ := wordsAreLittleEndian s.mem a (s.reg r)
  rw [← hmem] at hlow hhigh
  exact ⟨t, hexec, hlow, hhigh, hframe⟩

end Sys2Proof.Machine
end

section
/-! The five forms of ADD. Four of them write the sum of two words to a register, so that
`exec_setReg_add16_result` gives their result and frame; the storing form writes it to memory. -/

namespace Sys2Proof.Machine

/-! ## The sum -/

/-- Settles O45: `add16` is the addition of words, which wraps at 2^16. -/
theorem sumIsModulo : Obligations.SumIsModulo := by
  unfold Obligations.SumIsModulo
  intro p q
  rw [add16_eq_add]
  exact BitVec.toNat_add p q

/-- The result and the frame of an instruction that writes a sum to the register `d`. -/
theorem exec_setReg_add16_result {i : Instr} {s : State} {d : Reg} {p q : Word} {n : Nat}
    (hexec : exec i s = .next ((s.setReg d (add16 p q)).advance n)) :
    ∃ t, exec i s = .next t ∧ (t.reg d).toNat = (p.toNat + q.toNat) % 65536 ∧
      SameRegsBut d s t ∧ SameMemory s t ∧ Advanced n s t := by
  obtain ⟨t, hnext, hsum, hframe⟩ := exec_setReg_result hexec
  exact ⟨t, hnext, hsum ▸ sumIsModulo p q, hframe⟩

/-! ## The forms of ADD -/

theorem exec_addRR (d r : Reg) (s : State) :
    exec (.addRR d r) s = .next ((s.setReg d (add16 (s.reg d) (s.reg r))).advance 2) := rfl

/-- `ADD r16, [a]` below the top of memory (spec R222). -/
theorem exec_addRM {a : Word} (ha : a ≠ 0xFFFF#16) (d : Reg) (s : State) :
    exec (.addRM d a) s = .next ((s.setReg d (add16 (s.reg d) (s.mem.readWord a))).advance 4) := by
  simp [exec, execAddRM, ha, Bind.bind, Except.bind, pure, Except.pure]

theorem exec_addAI (n : Word) (s : State) :
    exec (.addAI n) s = .next ((s.setReg .ax (add16 (s.reg .ax) n)).advance 3) := rfl

theorem exec_addRI (d : Reg) (n : Word) (s : State) :
    exec (.addRI d n) s = .next ((s.setReg d (add16 (s.reg d) n)).advance 4) := rfl

/-- Settles O53: the word at the address is written with its old value plus the register, and
`Memory.readWord_writeWord` reads the sum back. -/
theorem addStoreResult : Obligations.AddStoreResult := by
  unfold Obligations.AddStoreResult
  intro s a r ha
  obtain ⟨t, hexec, hmem, hframe⟩ := exec_writeWord_result (exec_addMR ha r s)
  have hsum : t.mem.readWord a = add16 (s.mem.readWord a) (s.reg r) := by
    rw [hmem, Memory.readWord_writeWord]
  exact ⟨t, hexec, hsum ▸ sumIsModulo _ _, hframe⟩

/-- Settles O51: both operands are read before the write, so that a register added to itself is doubled. -/
theorem addRegisterResult : Obligations.AddRegisterResult := by
  unfold Obligations.AddRegisterResult
  intro s d r
  exact exec_setReg_add16_result (exec_addRR d r s)

/-- Settles O52: the register is written with its old value plus the word at the address. -/
theorem addLoadResult : Obligations.AddLoadResult := by
  unfold Obligations.AddLoadResult
  intro s d a ha
  exact exec_setReg_add16_result (exec_addRM ha d s)

/-- Settles O54: the short form adds to AX. -/
theorem addAccumulatorResult : Obligations.AddAccumulatorResult := by
  unfold Obligations.AddAccumulatorResult
  intro s n
  exact exec_setReg_add16_result (exec_addAI n s)

/-- Settles O55: the long form adds to any register, AX included, to which no bytes decode (log entry 9). -/
theorem addImmediateResult : Obligations.AddImmediateResult := by
  unfold Obligations.AddImmediateResult
  intro s d n
  exact exec_setReg_add16_result (exec_addRI d n s)

end Sys2Proof.Machine
end

section
/-! HLT: its result, and that no other instruction and no error ends a run `Halted`. -/

namespace Sys2Proof.Machine

theorem exec_hlt (s : State) : exec .hlt s = .next ((s.advance 1).halt) := rfl

/-- Settles O56: HLT moves past its one byte and ends the run, and writes nothing else. -/
theorem hltResult : Obligations.HltResult := by
  unfold Obligations.HltResult
  intro s
  exact ⟨_, exec_hlt s, rfl, rfl, fun _ => rfl, fun _ => rfl, rfl⟩

/-- Settles O34: an error ends the run `Faulted`, and an instruction that completes leaves it `Running`
unless it is HLT. -/
theorem onlyHltHalts : Obligations.OnlyHltHalts := by
  unfold Obligations.OnlyHltHalts
  intro s t hstep hhalted
  obtain ⟨hrunning, _⟩ := step_cases hstep
  rcases step_outcome hstep with ⟨e, rfl⟩ | ⟨i, u, hdecode, hdone, rfl | rfl⟩
  case inl => cases hhalted
  case inr.inl =>
    by_cases hhlt : i = .hlt
    · rw [hdecode, hhlt, Instr.length]
    · have ht : t.run = .running := by rw [hdone.run, if_neg hhlt, hrunning]
      rw [ht] at hhalted
      cases hhalted
  case inr.inr => cases hhalted

end Sys2Proof.Machine
end

section
/-! The errors of one instruction: the order in which the decoder meets them, where an instruction cut short
ends, and all that a step which ends `Faulted` can have done. -/

namespace Sys2Proof

/-! ## The fetches of the decoder, in order -/

theorem fetchField_of_low_error {fetch : Nat → Except RunError Byte} {k : Nat} {e : RunError}
    (h : fetch k = .error e) : fetchField fetch k = .error e := by
  simp [fetchField, h, Bind.bind, Except.bind]

theorem fetchField_of_high_error {fetch : Nat → Except RunError Byte} {k : Nat} {lo : Byte} {e : RunError}
    (h0 : fetch k = .ok lo) (h1 : fetch (k + 1) = .error e) : fetchField fetch k = .error e := by
  simp [fetchField, h0, h1, Bind.bind, Except.bind]

theorem decodeWith_of_opcode_error {fetch : Nat → Except RunError Byte} {e : RunError}
    (h0 : fetch 0 = .error e) : decodeWith fetch = .error e := by
  simp [decodeWith, h0, Bind.bind, Except.bind]

theorem decodeModRM_of_modrm_error {fetch : Nat → Except RunError Byte} {op : Byte} {e : RunError}
    (h1 : fetch 1 = .error e) : decodeModRM fetch op = .error e := by
  simp [decodeModRM, h1, Bind.bind, Except.bind]

/-- The offset of the 16-bit field of an instruction, if it has one: `Obligations.ErrorOrder` says the same
of the bytes it names (spec R101, R107). -/
def fieldOffset (op m : Byte) : Option Nat :=
  if op ∈ [0xB8#8, 0xB9#8, 0xBA#8, 0xBB#8, 0xBC#8, 0xBD#8, 0xBE#8, 0xBF#8, 0x05#8] then some 1
  else if hasModRM op = true ∧ (op = 0x81#8 ∨ modrmMode m = 0b00#2) then some 2 else none

/-- A field at offset 1 follows the opcode byte of a short immediate form; one at offset 2 follows the ModRM
byte, where it is a long immediate or a direct address. -/
theorem fieldOffset_eq_some {op m : Byte} {k : Nat} (h : fieldOffset op m = some k) :
    (k = 1 ∧ hasModRM op = false ∧ (op.extractLsb' 3 5 = 0b10111#5 ∨ op = 0x05#8)) ∨
    (k = 2 ∧ hasModRM op = true ∧ (op = 0x81#8 ∨ modrmMode m = 0b00#2)) := by
  unfold fieldOffset at h
  split at h
  case isTrue hop =>
    refine .inl ⟨(Option.some.inj h).symm, ?_⟩
    clear h
    revert op; decide
  case isFalse =>
    split at h
    case isTrue hmodrm => exact .inr ⟨(Option.some.inj h).symm, hmodrm⟩
    case isFalse => cases h

/-- After legal bytes, an error in the fetch of the 16-bit field is the decoder's. -/
theorem decodeWith_of_field_error {fetch : Nat → Except RunError Byte} {op m : Byte} {k : Nat} {e : RunError}
    (h0 : fetch 0 = .ok op) (h1 : hasModRM op = true → fetch 1 = .ok m ∧ legalModRM op m = true)
    (hk : fieldOffset op m = some k) (he : fetchField fetch k = .error e) :
    decodeWith fetch = .error e := by
  rcases fieldOffset_eq_some hk with ⟨rfl, _, hmov | rfl⟩ | ⟨rfl, hop, hfield⟩
  · simp [decodeWith, h0, hmov, he, Bind.bind, Except.bind]
  · simp [decodeWith, h0, he, Bind.bind, Except.bind]
  · obtain ⟨hm, hlegal⟩ := h1 hop
    rw [decodeWith_of_hasModRM h0 hop]
    rcases hfield with rfl | hmode
    · simp [decodeModRM, hm, hlegal, he, Bind.bind, Except.bind]
    · simp [decodeModRM, hm, hlegal, he, hmode, Bind.bind, Except.bind]

/-! ## Truncated instructions -/

/-- The decoder fetches the byte at offset `k` of an instruction with opcode byte `op` and ModRM byte `m`, unless
an earlier fetch or check raises: it is the opcode byte, the ModRM byte or one of the two of the 16-bit field. -/
def AskedFor (op m : Byte) (k : Nat) : Prop :=
  k = 0 ∨ (k = 1 ∧ hasModRM op = true) ∨ ∃ f, fieldOffset op m = some f ∧ (k = f ∨ k = f + 1)

theorem askedFor_short_field {op m : Byte} (hf : fieldOffset op m = some 1) {k : Nat} (hk : k < 3) :
    AskedFor op m k := by
  simp only [AskedFor, hf, Option.some.injEq, exists_eq_left']
  omega

theorem askedFor_long_field {op m : Byte} (hop : hasModRM op = true) (hf : fieldOffset op m = some 2) {k : Nat}
    (hk : k < 4) : AskedFor op m k := by
  simp only [AskedFor, hop, and_true, hf, Option.some.injEq, exists_eq_left']
  omega

theorem askedFor_direct {op m : Byte} (hop : hasModRM op = true) {k : Nat} (hk : k < 2) : AskedFor op m k := by
  simp only [AskedFor, hop, and_true]
  omega

@[simp] theorem fieldOffset_movImmediateOpcode (r : BitVec 3) (m : Byte) :
    fieldOffset (movImmediateOpcode r) m = some 1 :=
  if_pos (by revert r; decide)

@[simp] theorem hasModRM_movImmediateOpcode (r : BitVec 3) : hasModRM (movImmediateOpcode r) = false := by
  revert r; decide

/-- The bytes of an encoding pass the checks of the decoder, and each of them is asked for. -/
theorem encode_layout {i : Instr} (hi : i.WellFormed) : ∃ op m,
    (encode i)[0]? = some op ∧
    (hasModRM op = true → (encode i)[1]? = some m ∧ legalModRM op m = true) ∧
    ∀ k, k < (encode i).length → AskedFor op m k := by
  cases i with
  | movRI d n => exact ⟨_, 0#8, rfl, by simp, fun k hk => askedFor_short_field (by simp) hk⟩
  | addAI n => exact ⟨_, 0#8, rfl, by simp [hasModRM], fun k hk => askedFor_short_field rfl hk⟩
  | hlt => exact ⟨_, 0#8, rfl, by simp [hasModRM], fun k hk => .inl (Nat.lt_one_iff.mp hk)⟩
  | movRR d s | addRR d s =>
    exact ⟨_, _, rfl, fun _ => ⟨rfl, by simp [legalModRM]⟩, fun k hk => askedFor_direct rfl hk⟩
  | movRM r a | movMR a r | addRM r a | addMR a r =>
    refine ⟨_, _, rfl, fun _ => ⟨rfl, by simp [legalModRM]⟩, fun k hk => askedFor_long_field rfl ?_ hk⟩
    simp [fieldOffset, hasModRM]
  | addRI d n =>
    have hd : d.number ≠ 0#3 := by
      cases d with
      | ax => cases hi
      | cx | dx | bx | sp | bp | si | di => decide
    refine ⟨_, _, rfl, fun _ => ⟨rfl, by simp [legalModRM, hd]⟩, fun k hk => askedFor_long_field rfl ?_ hk⟩
    simp [fieldOffset, hasModRM]

/-- The decoder fetches the bytes of an instruction in order: the first that is missing raises (spec R306). -/
theorem decodeWith_of_truncated {fetch : Nat → Except RunError Byte} {i : Instr} {k : Nat} {e : RunError}
    (hi : i.WellFormed) (hk : k < (encode i).length)
    (hbefore : ∀ j b, j < k → (encode i)[j]? = some b → fetch j = .ok b) (hmissing : fetch k = .error e) :
    decodeWith fetch = .error e := by
  obtain ⟨op, m, hop, hmodrm, hasked⟩ := encode_layout hi
  have opcode (hpos : 0 < k) : fetch 0 = .ok op := hbefore 0 op hpos hop
  rcases hasked k hk with rfl | ⟨rfl, hm⟩ | ⟨f, hf, hkf⟩
  · exact decodeWith_of_opcode_error hmissing
  · rw [decodeWith_of_hasModRM (opcode Nat.one_pos) hm]
    exact decodeModRM_of_modrm_error hmissing
  · have hle : f ≤ k := by omega
    have herror : fetchField fetch f = .error e := by
      rcases hkf with rfl | rfl
      · exact fetchField_of_low_error hmissing
      · have hlow := hbefore f _ (Nat.lt_succ_self f) (List.getElem?_eq_getElem (by omega))
        exact fetchField_of_high_error hlow hmissing
    rcases fieldOffset_eq_some hf with ⟨rfl, hno, _⟩ | ⟨rfl, hm, _⟩
    · exact decodeWith_of_field_error (opcode hle) (by simp [hno]) hf herror
    · have hbyte := hbefore 1 m hle (hmodrm hm).1
      exact decodeWith_of_field_error (opcode (by omega)) (fun _ => ⟨hbyte, (hmodrm hm).2⟩) hf herror

theorem streamByte_of_length_le {bytes : List Byte} {a : Nat} (h : bytes.length ≤ a) :
    streamByte bytes a = .error (.endOfStream a) := by
  simp [streamByte, h]

/-- Settles O11, by `decodeWith_of_truncated`: the bytes that are left stand at the offset, and the sequence
ends where the first missing one would. -/
theorem truncatedInstructionEndsStream : Obligations.TruncatedInstructionEndsStream := by
  unfold Obligations.TruncatedInstructionEndsStream
  intro i hi before k hk
  refine decodeWith_of_truncated hi hk (fun j b hj hb => ?_) (streamByte_of_length_le (by simp))
  rw [streamByte_ok_iff, List.getElem?_append_right (Nat.le_add_right _ _), Nat.add_sub_cancel_left,
    List.getElem?_take_of_lt hj, hb]

/-! ## The kinds of error that are raised -/

/-- A fetch from a byte sequence raises `EndOfStream` only, at or past its end (spec R306). -/
theorem streamByte_error {bytes : List Byte} {a : Nat} {e : RunError} (h : streamByte bytes a = .error e) :
    e = .endOfStream a ∧ bytes.length ≤ a := by
  unfold streamByte at h
  split at h
  case h_1 => cases h
  case h_2 hnone =>
    cases h
    exact ⟨rfl, List.getElem?_eq_none_iff.mp hnone⟩

end Sys2Proof

namespace Sys2Proof.Machine

/-- A decoding at `ip` raises `UnknownOpcode` or `EndOfStream` (spec R301, R303). -/
theorem State.decodeAt_error_kind {s : State} {e : RunError} (h : s.decodeAt = .error e) :
    e.kind = .unknownOpcode ∨ e.kind = .endOfStream := by
  rcases decodeWith_error h with ⟨k, hfetch⟩ | ⟨op, _, _, rfl⟩ | ⟨op, m, _, _, _, _, rfl⟩
  · rcases s.fetchByte_cases (s.ip.toNat + k) with ⟨_, hok⟩ | ⟨_, herror⟩
    · rw [hok] at hfetch
      cases hfetch
    · rw [herror] at hfetch
      cases hfetch
      exact .inr rfl
  · exact .inl rfl
  · exact .inl rfl

/-- All that a step which ends `Faulted` can have done (spec R310, R311): the decoding raised, or the data
address did, and nothing else changed; or an instruction other than HLT completed, and the fetch after it
at 0x10000 raised. -/
theorem step_to_faulted {s t : State} {e : RunError} {a : Word} (h : step s = .next t)
    (ht : t.run = .faulted e a) :
    (s.decodeAt = .error e ∧ t = s.raise e) ∨
    (e = .addressOutOfRange 0xFFFF#16 ∧ t = s.raise e) ∨
    (e = .endOfStream 65536 ∧ ∃ i u, s.decodeAt = .ok (i, i.length) ∧ i ≠ .hlt ∧
      s.ip.toNat + i.length = 65536 ∧ exec i s = .next u ∧ u.run = .running ∧ t = u.raise e) := by
  obtain ⟨hrunning, ⟨e', hdecode, rfl⟩ | ⟨i, n, hdecode, hafter⟩⟩ := step_cases h
  · cases ht
    exact .inl ⟨hdecode, rfl⟩
  obtain ⟨_, rfl, _⟩ := State.decodeAt_ok hdecode
  obtain ⟨u, hexec⟩ := exec_next i s
  rw [hexec] at hafter
  rcases afterExec_cases hafter with ⟨hhlt, hend, hu, rfl⟩ | ⟨_, rfl⟩
  · cases ht
    exact .inr (.inr ⟨rfl, i, u, hdecode, hhlt, hend, hexec, hu, rfl⟩)
  · rcases exec_cases i s with ⟨_, hraise⟩ | ⟨u, hu, hdone⟩
    · rw [hexec] at hraise
      cases hraise
      cases ht
      exact .inr (.inl ⟨rfl, rfl⟩)
    · rw [hexec] at hu
      cases hu
      rw [hdone.run, hrunning] at ht
      split at ht <;> cases ht

/-- Settles O12: the decoder's errors by `decodeWith_error`, the step's by `step_to_faulted`. -/
theorem onlyDecodeAndAddressErrorsAreRaised : Obligations.OnlyDecodeAndAddressErrorsAreRaised := by
  unfold Obligations.OnlyDecodeAndAddressErrorsAreRaised
  refine ⟨fun bytes offset e h => ?_, fun s t e a hstep ht => ?_⟩
  · rcases decodeWith_error h with ⟨k, hfetch⟩ | ⟨op, _, _, he⟩ | ⟨op, m, _, _, _, _, he⟩
    · exact .inr ⟨offset + k, streamByte_error hfetch⟩
    · exact .inl ⟨op, none, he⟩
    · exact .inl ⟨op, some m, he⟩
  · rcases step_to_faulted hstep ht with ⟨hdecode, _⟩ | ⟨rfl, _⟩ | ⟨rfl, _⟩
    · exact (State.decodeAt_error_kind hdecode).imp_right .inl
    · exact .inr (.inr rfl)
    · exact .inr (.inl rfl)

/-! ## Errors are precise -/

/-- Settles O35, by `step_to_faulted`; `ip` past an instruction that ends at 0xFFFF is 0. -/
theorem errorsArePrecise : Obligations.ErrorsArePrecise := by
  unfold Obligations.ErrorsArePrecise
  intro s t e a hstep ht
  rcases step_to_faulted hstep ht with ⟨_, hraise⟩ | ⟨_, hraise⟩ |
    ⟨rfl, i, u, hdecode, hhlt, hend, hexec, hu, rfl⟩
  · exact .inl hraise
  · exact .inl hraise
  · have hip : u.ip = 0#16 := (completed_of_exec_running hexec hu).ip.trans (add_length_eq_zero hend)
    exact .inr ⟨i, i.length, u, hdecode, hhlt, hend, hexec, hu, rfl, hip⟩

/-! ## The order of the errors -/

theorem State.fetchByte_of_len_le {s : State} {a : Nat} (h : s.len.val ≤ a) :
    s.fetchByte a = .error (.endOfStream a) := if_neg (Nat.not_lt.mpr h)

theorem State.fetchByte_of_lt_len {s : State} {a : Nat} (h : a < s.len.val) :
    s.fetchByte a = .ok (s.mem.read a) := if_pos h

/-- A decoded instruction whose memory operand is at 0xFFFF ends the run with nothing else changed: the last
line of spec R145 speaks of completed instructions only. -/
theorem step_of_dataAddress_top {s : State} {i : Instr} {n : Nat} (hs : s.run = .running)
    (hdecode : s.decodeAt = .ok (i, n)) (ha : i.dataAddress = some 0xFFFF#16) :
    step s = .next (s.raise (.addressOutOfRange 0xFFFF#16)) := by
  rw [step_of_decodeAt hs hdecode, exec_top ha]
  exact if_neg fun ⟨_, _, hrunning⟩ => nomatch hrunning

/-- Settles O36: each clause names the check of the decoder that fails after those before it have passed, and
a decoding that raises changes nothing but the run state. -/
theorem errorOrder : Obligations.ErrorOrder := by
  unfold Obligations.ErrorOrder
  intro s hs a fails field
  have decodeFails {e : RunError} (h : s.decodeAt = .error e) : fails e := step_of_decode_error hs h
  refine ⟨fun hend => ?_, fun op h0 => ⟨fun hop => ?_, fun hop hend => ?_, fun m h1 => ⟨fun hop hm => ?_, ?_⟩⟩,
    fun i n hdecode ha => step_of_dataAddress_top hs hdecode ha⟩
  · exact decodeFails (decodeWith_of_opcode_error (State.fetchByte_of_len_le hend))
  · exact decodeFails (decodeWith_of_illegal h0 hop)
  · refine decodeFails ((decodeWith_of_hasModRM h0 hop).trans ?_)
    exact decodeModRM_of_modrm_error (State.fetchByte_of_len_le hend)
  · exact decodeFails ((decodeWith_of_hasModRM h0 hop).trans (decodeModRM_of_illegal (h1 hop) hm))
  · intro _ hlegal k hk
    have fieldFails {e : RunError} (he : fetchField (fun j => s.fetchByte (s.ip.toNat + j)) k = .error e) :
        fails e :=
      decodeFails (decodeWith_of_field_error h0 (fun hop => ⟨h1 hop, hlegal hop⟩) hk he)
    refine ⟨fun hend => ?_, fun hend => ?_⟩
    · exact fieldFails (fetchField_of_low_error (State.fetchByte_of_len_le hend))
    · have hlow : s.fetchByte (s.ip.toNat + k) = .ok (s.mem.read (s.ip.toNat + k)) :=
        State.fetchByte_of_lt_len (by omega)
      exact fieldFails (fetchField_of_high_error hlow (State.fetchByte_of_len_le (Nat.le_of_eq hend)))

end Sys2Proof.Machine
end

section
/-! The end of a run: when it comes, and that nothing follows it. -/

namespace Sys2Proof.Machine

/-- Settles O23, by `runFor_ended`: all `L` bytes are still left after a load, `ip` being 0. -/
theorem everyRunEndsWithinItsBound : Obligations.EveryRunEndsWithinItsBound := by
  unfold Obligations.EveryRunEndsWithinItsBound
  intro stream s hload
  obtain ⟨_, rfl⟩ := load_ok hload
  exact runFor_ended (Nat.lt_succ_of_le (Nat.sub_le _ _))

/-- A faulted state is reported as its error (spec R310). -/
theorem State.report_of_faulted {s : State} {e : RunError} {a : Word} (h : s.run = .faulted e a) :
    s.report = .failed e a := by
  simp only [State.report, h]

/-- Settles O26: the step of an ended run is a fault of the model, at which the run loop stays, and a faulted
state is reported as its error. -/
theorem noStepAfterTheEnd : Obligations.NoStepAfterTheEnd := by
  unfold Obligations.NoStepAfterTheEnd
  intro s hs
  obtain ⟨f, hfault⟩ := step_of_ended hs
  refine ⟨fun t hnext => ?_, runFor_of_ended hs, fun e a hrun shot hfinished => ?_⟩
  · rw [hfault] at hnext
    cases hnext
  · rw [State.report_of_faulted hrun] at hfinished
    cases hfinished

end Sys2Proof.Machine
end
